-- ==== Sys2Proof/Word.lean ====
section
/-! DEFINITION. The word types of the core: every value is an unsigned bit vector of a stated width (R12). -/

namespace Sys2Proof

/-- 8 bits: a general register, a timer, a memory byte, the immediate `kk` (R20, R28, R29, R50, R71). -/
abbrev Byte := BitVec 8

/-- 16 bits: an instruction word, the program counter, the index register, a return address (R23, R25, R26, R70). -/
abbrev Word := BitVec 16

/-- 4 bits: the fields `x`, `y`, `n` of an instruction word and the number of a key (R71, R32). -/
abbrev Nibble := BitVec 4

/-- 12 bits: the field `nnn` of an instruction word (R71). -/
abbrev Addr := BitVec 12

end Sys2Proof
end

