-- ==== Sys2Proof/Syntax.lean ====
section
/-! DEFINITION. The instructions: one constructor per row of spec/opcode_table.json (R77, R84), in the table's order. -/

namespace Sys2Proof

/-- An instruction with its operand fields (R71, R72).  The last constructor is the unmatched word of R79;
it keeps the word itself, so that no bit of it is lost (log entry 12). -/
inductive Instr where
  /-- `00E0` clear-display (R150). -/
  | cls
  /-- `00EE` return (R100). -/
  | ret
  /-- `1nnn` jump (R101). -/
  | jp (nnn : Addr)
  /-- `2nnn` call (R102). -/
  | call (nnn : Addr)
  /-- `3xkk` skip-if-equal-immediate (R103). -/
  | seImm (x : Nibble) (kk : Byte)
  /-- `4xkk` skip-if-not-equal-immediate (R104). -/
  | sneImm (x : Nibble) (kk : Byte)
  /-- `5xy-` skip-if-registers-equal, low nibble ignored (R105, R78). -/
  | seReg (x y : Nibble)
  /-- `6xkk` load-immediate (R120). -/
  | ldImm (x : Nibble) (kk : Byte)
  /-- `7xkk` add-immediate (R121). -/
  | addImm (x : Nibble) (kk : Byte)
  /-- `8xy0` copy (R122). -/
  | ldReg (x y : Nibble)
  /-- `8xy1` OR (R123). -/
  | orReg (x y : Nibble)
  /-- `8xy2` AND (R124). -/
  | andReg (x y : Nibble)
  /-- `8xy3` XOR (R125). -/
  | xorReg (x y : Nibble)
  /-- `8xy4` add-registers (R126). -/
  | addReg (x y : Nibble)
  /-- `8xy5` subtract, x - y (R127). -/
  | sub (x y : Nibble)
  /-- `8xy6` shift-right (R128). -/
  | shr (x y : Nibble)
  /-- `8xy7` subtract-reverse, y - x (R129). -/
  | subn (x y : Nibble)
  /-- `8xyE` shift-left (R130). -/
  | shl (x y : Nibble)
  /-- `9xy-` skip-if-registers-not-equal, low nibble ignored (R106, R78). -/
  | sneReg (x y : Nibble)
  /-- `Annn` set-index (R140). -/
  | ldI (nnn : Addr)
  /-- `Bnnn` jump-with-offset (R107). -/
  | jpV0 (nnn : Addr)
  /-- `Cxkk` random-and (R131). -/
  | rnd (x : Nibble) (kk : Byte)
  /-- `Dxyn` draw-sprite (R151). -/
  | drw (x y n : Nibble)
  /-- `Ex9E` skip-if-key-pressed (R170). -/
  | skp (x : Nibble)
  /-- `ExA1` skip-if-key-not-pressed (R171). -/
  | sknp (x : Nibble)
  /-- `Fx07` load-delay-timer (R160). -/
  | ldVxDT (x : Nibble)
  /-- `Fx0A` wait-for-key (R172). -/
  | ldVxK (x : Nibble)
  /-- `Fx15` set-delay-timer (R161). -/
  | ldDT (x : Nibble)
  /-- `Fx18` set-sound-timer (R162). -/
  | ldST (x : Nibble)
  /-- `Fx1E` add-to-index (R141). -/
  | addI (x : Nibble)
  /-- `Fx29` set-index-to-glyph (R142). -/
  | ldF (x : Nibble)
  /-- `Fx33` store-bcd (R143). -/
  | ldB (x : Nibble)
  /-- `Fx55` store-registers, `V[0]` to `V[x]` (R144). -/
  | stRegs (x : Nibble)
  /-- `Fx65` load-registers, `V[0]` to `V[x]` (R145). -/
  | ldRegs (x : Nibble)
  /-- `NOP`: an unmatched word (R79, R94). -/
  | nop (w : Word)
  deriving DecidableEq, Repr

end Sys2Proof
end

