-- ==== Sys2Proof/WellFormed.lean ====
section
/-! DEFINITION. Which instruction terms stand for words of the machine.  Every operand field is legal at every value of
its type (R71, R81); the one check is that a `nop` term holds a word of R79's list. -/

namespace Sys2Proof

/-- The second keys of opcode family 0xF (R77 rows 26 to 34). -/
def familyFKeys : List Byte := [0x07, 0x0A, 0x15, 0x18, 0x1E, 0x29, 0x33, 0x55, 0x65]

/-- The unmatched words, as R79 lists them: (a) `0nnn` but 0x00E0 and 0x00EE; (b) `8xyn` with `n` in 8 to 0xD or 0xF;
(c) `Exkk` with `kk` other than 0x9E and 0xA1; (d) `Fxkk` with `kk` other than the nine second keys. -/
def unmatchedWord (w : Word) : Bool :=
  let op := w.toNat / 0x1000
  let n := w.toNat % 0x10
  let kk : Byte := w.setWidth 8
  (op == 0x0 && w != 0x00E0#16 && w != 0x00EE#16) ||
  (op == 0x8 && ((0x8 ≤ n && n ≤ 0xD) || n == 0xF)) ||
  (op == 0xE && kk != 0x9E#8 && kk != 0xA1#8) ||
  (op == 0xF && !familyFKeys.contains kk)

/-- A term is well formed when it stands for some word: a `nop` term must hold an unmatched word. -/
def Instr.wf : Instr → Bool
  | .nop w => unmatchedWord w
  | .cls | .ret => true
  | .jp _ | .call _ | .ldI _ | .jpV0 _ => true
  | .seImm _ _ | .sneImm _ _ | .ldImm _ _ | .addImm _ _ | .rnd _ _ => true
  | .seReg _ _ | .sneReg _ _ | .ldReg _ _ | .orReg _ _ | .andReg _ _ | .xorReg _ _ => true
  | .addReg _ _ | .sub _ _ | .shr _ _ | .subn _ _ | .shl _ _ => true
  | .drw _ _ _ => true
  | .skp _ | .sknp _ | .ldVxDT _ | .ldVxK _ | .ldDT _ | .ldST _ => true
  | .addI _ | .ldF _ | .ldB _ | .stRegs _ | .ldRegs _ => true

end Sys2Proof
end

