-- ==== Sys2Proof/Config.lean ====
section
/-! DEFINITION. What an implementation fixes (R10) and the one free value of the core, the random byte (R131). -/

namespace Sys2Proof

/-- `SHIFT_SRC` (R10, R128, R130): the register a shift reads, the destination `V[x]` itself or `V[y]`. -/
inductive ShiftSrc where
  | x
  | y
  deriving DecidableEq, Repr

/-- The parameters of R10 that change what an instruction does.  They are fixed for one core: no event changes them. -/
structure Params where
  /-- `SHIFT_SRC`: which register shift-right and shift-left read. -/
  shiftSrc : ShiftSrc
  /-- `INDEX_INCREMENT`: whether store-registers and load-registers advance the index register. -/
  indexIncrement : Bool
  deriving DecidableEq, Repr

/-- The random byte `rnd` of the `n`-th execution of random-and (R131; D16, U6: "a fresh draw per execution").
It has no body: nothing is assumed of it, and a claim that mentions it holds for every value (log entry 2). -/
opaque Config.rnd : Nat → Byte

end Sys2Proof
end

