-- ==== Sys2Proof/Machine/Defaults.lean ====
section
/-! DEFINITION. The constants that reset puts into the state (R37, R53, R10): one place for each, so that State.reset names
them and spells none out. -/

namespace Sys2Proof.Machine

/-- `MEM_SIZE` (R10, R50): the valid addresses are 0 to 4095. -/
def memSize : Nat := 4096

/-- `GLYPH_BYTES` (R10, R51): the glyph table lies at 0x000 to 0x04F. -/
def glyphBytes : Nat := 80

/-- `PROGRAM_BASE` (R10, R51): the load address of a program. -/
def programBase : Nat := 0x200

/-- `PROGRAM_MAX` (R10, R60): the largest program image. -/
def programMax : Nat := 3584

/-- The last address an instruction can be fetched from (R91). -/
def lastFetch : Nat := 0xFFE

/-- `GLYPHS` (R53): the 80 bytes of the glyph table, five a digit (log entry 7). -/
def glyphs : List Byte :=
  [0xF0, 0x90, 0x90, 0x90, 0xF0] ++ [0x20, 0x60, 0x20, 0x20, 0x70] ++
  [0xF0, 0x10, 0xF0, 0x80, 0xF0] ++ [0xF0, 0x10, 0xF0, 0x10, 0xF0] ++
  [0x90, 0x90, 0xF0, 0x10, 0x10] ++ [0xF0, 0x80, 0xF0, 0x10, 0xF0] ++
  [0xF0, 0x80, 0xF0, 0x90, 0xF0] ++ [0xF0, 0x10, 0x20, 0x40, 0x40] ++
  [0xF0, 0x90, 0xF0, 0x90, 0xF0] ++ [0xF0, 0x90, 0xF0, 0x10, 0xF0] ++
  [0xF0, 0x90, 0xF0, 0x90, 0x90] ++ [0xE0, 0x90, 0xE0, 0x90, 0xE0] ++
  [0xF0, 0x80, 0x80, 0x80, 0xF0] ++ [0xE0, 0x90, 0x90, 0x90, 0xE0] ++
  [0xF0, 0x80, 0xF0, 0x80, 0xF0] ++ [0xF0, 0x80, 0xF0, 0x80, 0x80]

/-- What an address reads as when nothing has been stored there: the contents after a reset with an empty program, the
glyph table and zeros (R37, R51, R53). -/
def initialByte (a : Nat) : Byte := glyphs.getD a 0

/-- The reset value of `pc` (R37). -/
def resetPc : Word := 0x0200

/-- The reset value of every general register (R37). -/
def resetV : Byte := 0

/-- The reset value of `I` (R37). -/
def resetI : Word := 0

/-- The reset value of every stack entry (R37). -/
def resetStackEntry : Word := 0

/-- The reset value of both timers (R37). -/
def resetTimer : Byte := 0

/-- The reset value of every framebuffer cell (R37). -/
def resetCell : Bool := false

/-- The reset value of the redraw-pending flag (R37). -/
def resetRedraw : Bool := false

/-- The reset value of every keypad entry (R37). -/
def resetKey : Bool := false

/-- The values of the parameters of this core: the default of `SHIFT_SRC` and the value of `INDEX_INCREMENT` (R10, D9, D17;
log entry 3). -/
def defaultParams : Params := { shiftSrc := .x, indexIncrement := true }

end Sys2Proof.Machine
end

