-- ==== Sys2Proof/Machine/State.lean ====
section
/-! DEFINITION. The state of the core (R20 to R36), its reset value (R37), and the reasons a step can stop. -/

namespace Sys2Proof.Machine

/-- Memory as plain data: the cells that differ from `initialByte`, by rising address (R34, R50; log entry 7). -/
abbrev Memory := List Host.Cell

/-- The framebuffer: 32 rows of 64 one-bit cells; `fb[y][x]` is the spec's `fb[x][y]` (R30). -/
abbrev Framebuffer := Vector (Vector Bool 64) 32

/-- The seven causes of a fault (R181). -/
inductive FaultCode where
  /-- 1: the fetch address is above 0xFFE. -/
  | fetchRange
  /-- 2: a data read address is above 0xFFF. -/
  | readRange
  /-- 3: a data write address is above 0xFFF. -/
  | writeRange
  /-- 4: a data write address is at or below 0x04F. -/
  | glyphWrite
  /-- 5: a call at depth 16. -/
  | stackOverflow
  /-- 6: a return at depth 0. -/
  | stackUnderflow
  /-- 7: a keypad skip with a register value above 15. -/
  | keyRange
  deriving DecidableEq, Repr

/-- The record in the fault latch (R33): the cause, the address of the faulting instruction, its word (0 when the fetch
itself faulted) and the cause's `info` (R181). -/
structure FaultRecord where
  code : FaultCode
  pc0 : Word
  word : Word
  info : Nat
  deriving DecidableEq, Repr

/-- An event of one of the three agents (R6).  The random byte of a `STEP` is the free value `Config.rnd` (log entry 2). -/
inductive Event where
  /-- `STEP`, the interpreter's (R90). -/
  | step
  /-- `TICK`, the timer driver's (R188). -/
  | tick
  /-- `KEY_SET(k)`, the host's (R191). -/
  | keySet (k : Nibble)
  /-- `KEY_CLEAR(k)`, the host's (R191). -/
  | keyClear (k : Nibble)
  /-- `REDRAW_ACK`, the host's (R193). -/
  | redrawAck
  /-- `RESET(PROGRAM)`, the host's (R210). -/
  | reset (program : List Byte)
  deriving DecidableEq, Repr

/-- The state of the core.  The fields up to `fault` are the spec's (R36); the last three are the model's own: they hold
what R35 calls inputs and parameters of the step relation. -/
structure State where
  /-- `V[0]` to `V[15]` (R20); `V[15]` is also the flag register (R21). -/
  v : Vector Byte 16
  /-- The index register `I`, 16 bits, never masked to 12 (R25). -/
  i : Word
  /-- The program counter (R23). -/
  pc : Word
  /-- The call stack's entries (R26). -/
  stack : Vector Word 16
  /-- The depth counter, 0 to 16 (R27). -/
  sp : Fin 17
  /-- The delay timer (R28). -/
  dt : Byte
  /-- The sound timer (R29). -/
  st : Byte
  /-- The framebuffer (R30). -/
  fb : Framebuffer
  /-- The redraw-pending flag (R31). -/
  redraw : Bool
  /-- The keypad, true for pressed (R32). -/
  keypad : Vector Bool 16
  /-- The memory (R34). -/
  mem : Memory
  /-- The fault latch (R33). -/
  fault : Option FaultRecord
  /-- The model's own: the events still to come, in order; with none, the next event is a `STEP` (R7, R8; log entry 1). -/
  schedule : List Event
  /-- The model's own: how many random bytes have been drawn, the argument of `Config.rnd` (R131; log entry 2). -/
  draws : Nat
  /-- The parameters `SHIFT_SRC` and `INDEX_INCREMENT`, changed by no event (R10; log entry 3). -/
  params : Params
  deriving DecidableEq, Repr

/-- Why the machine would stop with a fault of the model.  It has no constructor: every fault of the spec is a state, with
the fault latch set and every later `STEP` without effect (R184, R95), so no step ends the run this way (log entry 4). -/
inductive Fault where
  deriving DecidableEq, Repr

/-- Why a step has no meaning. -/
inductive Refusal where
  /-- Raised by an arm of `exec` for an instruction that has no meaning yet; no arm raises it.  Safe. -/
  | notModelled (mnemonic : String)
  /-- Raised by the event `RESET(PROGRAM)` for an image longer than 3584 bytes: R212, "A model takes `len` <= 3584 as a
  premise of `RESET` and gives no meaning to a longer image."  Safe (log entry 10). -/
  | imageTooLong
  deriving DecidableEq, Repr

/-- The state right after `RESET` with an empty program (R37, R211): memory lists nothing, so that it reads as the glyph
table and zeros. -/
def State.reset : State where
  v := Vector.replicate 16 resetV
  i := resetI
  pc := resetPc
  stack := Vector.replicate 16 resetStackEntry
  sp := 0
  dt := resetTimer
  st := resetTimer
  fb := Vector.replicate 32 (Vector.replicate 64 resetCell)
  redraw := resetRedraw
  keypad := Vector.replicate 16 resetKey
  mem := []
  fault := none
  schedule := []
  draws := 0
  params := defaultParams

end Sys2Proof.Machine
end

