-- ==== Sys2Proof/Machine/Ops.lean ====
section
/-! DEFINITION. The named operations over memory, registers, call stack and framebuffer, fault entry and its only exit. -/

namespace Sys2Proof.Machine

/-! ### Memory (R50 to R59) -/

/-- The byte at an address: what is listed for it, or what the address reads as when nothing is listed (R57). -/
def Memory.read : Memory → Nat → Byte
  | [], a => initialByte a
  | (b, w) :: m, a => if a = b then w else Memory.read m a

/-- Puts a cell in front of a list of cells, unless it holds what the address reads as unlisted. -/
def Memory.cons (a : Nat) (w : Byte) (m : Memory) : Memory :=
  if w = initialByte a then m else (a, w) :: m

/-- Stores one byte and keeps the canonical form (R58). -/
def Memory.write : Memory → Nat → Byte → Memory
  | [], a, w => Memory.cons a w []
  | (b, u) :: m, a, w =>
    if a < b then Memory.cons a w ((b, u) :: m)
    else if a = b then Memory.cons a w m
    else (b, u) :: Memory.write m a w

/-- Stores bytes at ascending addresses (R56). -/
def Memory.writeBlock : Memory → Nat → List Byte → Memory
  | m, _, [] => m
  | m, a, w :: ws => Memory.writeBlock (Memory.write m a w) (a + 1) ws

/-- The bytes at `n` ascending addresses (R56). -/
def Memory.readBlock (m : Memory) (a n : Nat) : List Byte := (List.range' a n).map (Memory.read m)

/-- The canonical form: addresses strictly rising, each a valid address (R50), no cell equal to what its address reads as
unlisted. -/
def Memory.wf : Memory → Bool
  | [] => true
  | (a, w) :: m => decide (a < memSize) && decide (w ≠ initialByte a) && m.all (fun c => decide (a < c.1)) && Memory.wf m

/-- Why `MemRead(addr, 1)` of a data access raises, with the fault's `info` (R57). -/
def checkRead (a : Nat) : Option (FaultCode × Nat) :=
  if a > 0xFFF then some (.readRange, a) else none

/-- Why `MemWrite(addr, 1, _)` raises, with the fault's `info` (R58). -/
def checkWrite (a : Nat) : Option (FaultCode × Nat) :=
  if a > 0xFFF then some (.writeRange, a)
  else if a < glyphBytes then some (.glyphWrite, a)
  else none

/-- The first of `n` ascending addresses from `a` at which a check raises: the lowest offending address (R59, R183). -/
def firstRaise (check : Nat → Option (FaultCode × Nat)) (a n : Nat) : Option (FaultCode × Nat) :=
  (List.range' a n).findSome? check

/-! ### Faults (R180 to R185) -/

/-- The number of a cause (R181). -/
def FaultCode.number : FaultCode → Nat
  | .fetchRange => 1
  | .readRange => 2
  | .writeRange => 3
  | .glyphWrite => 4
  | .stackOverflow => 5
  | .stackUnderflow => 6
  | .keyRange => 7

/-- Fault entry (R184), the one way a fault is taken.  `s` is the state before the step: every element keeps its value,
`pc` included, and the latch records the cause, the address of the instruction, its word and the cause's `info`. -/
def raiseFault (code : FaultCode) (word : Word) (info : Nat) (s : State) : State :=
  { s with fault := some { code := code, pc0 := s.pc, word := word, info := info } }

/-- The memory after the loader has copied a program (R60, R211). -/
def loadProgram (program : List Byte) : Memory := Memory.writeBlock [] programBase program

/-- The only exit from a fault, and the machine's creation (R185, R210): every state element at its reset value, the
program in memory.  The model's own fields stay (log entry 8). -/
def resetWith (program : List Byte) (s : State) : State :=
  { State.reset with mem := loadProgram program, schedule := s.schedule, draws := s.draws, params := s.params }

/-! ### Writes of single elements (R13) -/

/-- Writes `I`. -/
def setI (w : Word) (s : State) : State := { s with i := w }

/-- Writes memory. -/
def setMem (m : Memory) (s : State) : State := { s with mem := m }

/-- Writes `DT`. -/
def setDT (w : Byte) (s : State) : State := { s with dt := w }

/-- Writes `ST`. -/
def setST (w : Byte) (s : State) : State := { s with st := w }

/-- Writes the framebuffer and raises the redraw flag, as the two display instructions do every time (R31). -/
def setFramebuffer (fb : Framebuffer) (s : State) : State := { s with fb := fb, redraw := true }

/-- Counts one random byte drawn (log entry 2). -/
def countDraw (s : State) : State := { s with draws := s.draws + 1 }

/-! ### Program counter and call stack (R23 to R27) -/

/-- The advance of `pc` by 2, modulo 2^16, before the handler (R92). -/
def advance (s : State) : State := { s with pc := s.pc + 2 }

/-- The skip convention (R108): 2 more on the already-advanced `pc` when the condition holds. -/
def skipIf (cond : Bool) (s : State) : State := if cond then { s with pc := s.pc + 2 } else s

/-- Control transfer to an address. -/
def jumpTo (target : Word) (s : State) : State := { s with pc := target }

/-- Pushes `pc`, here the address after the call (R102); nothing at depth 16. -/
def pushPc (s : State) : Option State :=
  if h : s.sp.val < 16 then
    some { s with stack := s.stack.set s.sp.val s.pc h, sp := ⟨s.sp.val + 1, by omega⟩ }
  else none

/-- Pops the most recent return address into `pc` (R100); nothing at depth 0.  The entry keeps its contents (R26). -/
def popPc (s : State) : Option State :=
  if h : 0 < s.sp.val then
    some { s with sp := ⟨s.sp.val - 1, by omega⟩, pc := s.stack[s.sp.val - 1]'(by omega) }
  else none

/-! ### Fetch (R91) -/

/-- The word at `pc`, high byte at the lower address; nothing when a byte of it would lie above 0xFFF (R91). -/
def fetch (s : State) : Option Word :=
  if s.pc.toNat > lastFetch then none
  else some (bytesWord (Memory.read s.mem s.pc.toNat) (Memory.read s.mem (s.pc.toNat + 1)))

/-! ### Framebuffer (R30, R150 to R153) -/

/-- The cell at column `x`, row `y`. -/
def Framebuffer.cell (fb : Framebuffer) (x : Fin 64) (y : Fin 32) : Bool := fb[y][x]

/-- Toggles one cell (R151). -/
def Framebuffer.toggle (fb : Framebuffer) (x : Fin 64) (y : Fin 32) : Framebuffer :=
  fb.set y.val (fb[y].set x.val (!fb[y][x]))

/-- All 2048 cells 0 (R150). -/
def Framebuffer.blank : Framebuffer := Vector.replicate 32 (Vector.replicate 64 false)

/-- A column reduced modulo 64 (R152). -/
def wrapX (n : Nat) : Fin 64 := ⟨n % 64, Nat.mod_lt _ (by decide)⟩

/-- A row reduced modulo 32 (R152). -/
def wrapY (n : Nat) : Fin 32 := ⟨n % 32, Nat.mod_lt _ (by decide)⟩

/-- What a draw works on: the framebuffer and whether a toggled cell was 1 (R151). -/
abbrev Drawing := Framebuffer × Bool

/-- One column of one sprite row: a set bit toggles the cell, and collides when the cell was 1; bit 7 is column 0
(R151, R153). -/
def drawPixel (byte : Byte) (cx py : Nat) (d : Drawing) (c : Nat) : Drawing :=
  if byte.getLsbD (7 - c) then
    (Framebuffer.toggle d.1 (wrapX (cx + c)) (wrapY py), d.2 || Framebuffer.cell d.1 (wrapX (cx + c)) (wrapY py))
  else d

/-- The eight columns of one sprite row (R151). -/
def drawRow (byte : Byte) (cx py : Nat) (d : Drawing) : Drawing :=
  (List.range 8).foldl (drawPixel byte cx py) d

/-- The rows of a sprite, the first at `py`, each next one row further down (R151). -/
def drawRows : List Byte → Nat → Nat → Drawing → Drawing
  | [], _, _, d => d
  | byte :: rows, cx, py, d => drawRows rows cx (py + 1) (drawRow byte cx py d)

end Sys2Proof.Machine
end

