-- ==== Sys2Proof/Machine/Operands.lean ====
section
/-! DEFINITION. The operand forms: general registers, the register block, the shift source, the index-relative address, the
key a register names, and the digits of a register (R20, R59, R73, R74). -/

namespace Sys2Proof.Machine

/-- Reads `V[r]` (R13, R73). -/
def getV (s : State) (r : Nibble) : Byte := s.v[r.toNat]'r.isLt

/-- Writes `V[r]` (R13, R73). -/
def setV (s : State) (r : Nibble) (w : Byte) : State := { s with v := s.v.set r.toNat w r.isLt }

/-- The number of the flag register (R21). -/
def flagReg : Nibble := 0xF

/-- A 12-bit operand as a 16-bit address, zero-extended (R74). -/
def addrOperand (nnn : Addr) : Word := nnn.setWidth 16

/-- A register's value as a 16-bit addend, zero-extended (R107, R141, R142). -/
def wideV (s : State) (r : Nibble) : Word := (getV s r).setWidth 16

/-- The value a shift reads: `V[x]` or `V[y]`, by `SHIFT_SRC` (R128, R130; log entry 3). -/
def shiftOperand (s : State) (x y : Nibble) : Byte :=
  match s.params.shiftSrc with
  | .x => getV s x
  | .y => getV s y

/-- The index register as a memory base, an unbounded integer (R59). -/
def indexBase (s : State) : Nat := s.i.toNat

/-- The registers `V[0]` to `V[x]`, in order (R73, R144). -/
def registerBlock (s : State) (x : Nibble) : List Byte := s.v.toList.take (x.toNat + 1)

/-- Loads `V[0]` to `V[x]` from ascending addresses from `a` (R145). -/
def loadRegisters (s : State) (a : Nat) (x : Nibble) : State :=
  { s with v := Vector.ofFn fun r : Fin 16 => if r.val ≤ x.toNat then Memory.read s.mem (a + r.val) else s.v[r] }

/-- The advance of `I` after a block move, by `x + 1` modulo 2^16, when `INDEX_INCREMENT` holds (R144, R145; log entry 3). -/
def advanceIndex (s : State) (x : Nibble) : State :=
  if s.params.indexIncrement then setI (s.i + x.setWidth 16 + 1) s else s

/-- The state of the key that `V[x]` names; nothing when the value is above 15 (R170, R171). -/
def keyOperand (s : State) (x : Nibble) : Option Bool := s.keypad[(getV s x).toNat]?

/-- The lowest pressed key, if any (R172). -/
def lowestKey (s : State) : Option Nat := s.keypad.toList.findIdx? id

/-- The hundreds, tens and units digit of a byte (R143). -/
def bcdDigits (w : Byte) : List Byte := [w / 100#8, (w / 10#8) % 10#8, w % 10#8]

end Sys2Proof.Machine
end

