-- ==== Sys2Proof/Machine/Flags.lean ====
section
/-! DEFINITION. The flag computations (R22, R126 to R130, R151) and the order of the two writes (R132). -/

namespace Sys2Proof.Machine

/-- A flag as the whole register's value, 0 or 1 (R21). -/
def flagByte (b : Bool) : Byte := if b then 1 else 0

/-- The carry of an addition: the unbounded sum is above 255 (R126). -/
def carryFlag (a b : Byte) : Bool := decide (a.toNat + b.toNat > 255)

/-- The negation of the borrow of `a - b`: `a >= b` (R127, R129). -/
def noBorrowFlag (a b : Byte) : Bool := decide (a.toNat ≥ b.toNat)

/-- The bit a right shift loses, bit 0 (R128). -/
def rightLostBit (w : Byte) : Bool := w.getLsbD 0

/-- The bit a left shift loses, bit 7 (R130). -/
def leftLostBit (w : Byte) : Bool := w.getLsbD 7

/-- The flag write and then the destination write, which wins when the destination is `V[F]` (R132). -/
def writeFlagThen (s : State) (flag : Bool) (x : Nibble) (w : Byte) : State :=
  setV (setV s flagReg (flagByte flag)) x w

end Sys2Proof.Machine
end

