-- ==== Sys2Proof/Machine/Arithmetic.lean ====
section
/-! DEFINITION. The meanings of the register arithmetic, logic, shift and random instructions (R120 to R134).  Every operand
is read from the state before the step (R132). -/

namespace Sys2Proof.Machine

/-- R120. -/
def execLdImm (x : Nibble) (kk : Byte) (s : State) : Host.Outcome State Fault Refusal :=
  .next (setV (advance s) x kk)

/-- R121: modulo 256, no flag. -/
def execAddImm (x : Nibble) (kk : Byte) (s : State) : Host.Outcome State Fault Refusal :=
  .next (setV (advance s) x (getV s x + kk))

/-- R122. -/
def execLdReg (x y : Nibble) (s : State) : Host.Outcome State Fault Refusal :=
  .next (setV (advance s) x (getV s y))

/-- R123: no flag. -/
def execOrReg (x y : Nibble) (s : State) : Host.Outcome State Fault Refusal :=
  .next (setV (advance s) x (getV s x ||| getV s y))

/-- R124: no flag. -/
def execAndReg (x y : Nibble) (s : State) : Host.Outcome State Fault Refusal :=
  .next (setV (advance s) x (getV s x &&& getV s y))

/-- R125: no flag. -/
def execXorReg (x y : Nibble) (s : State) : Host.Outcome State Fault Refusal :=
  .next (setV (advance s) x (getV s x ^^^ getV s y))

/-- R126: the flag is the carry of the sum before truncation. -/
def execAddReg (x y : Nibble) (s : State) : Host.Outcome State Fault Refusal :=
  .next (writeFlagThen (advance s) (carryFlag (getV s x) (getV s y)) x (getV s x + getV s y))

/-- R127: the flag is 1 when `V[x] >= V[y]`. -/
def execSub (x y : Nibble) (s : State) : Host.Outcome State Fault Refusal :=
  .next (writeFlagThen (advance s) (noBorrowFlag (getV s x) (getV s y)) x (getV s x - getV s y))

/-- R128: the flag is bit 0 of the source, captured before the shift. -/
def execShr (x y : Nibble) (s : State) : Host.Outcome State Fault Refusal :=
  .next (writeFlagThen (advance s) (rightLostBit (shiftOperand s x y)) x (shiftOperand s x y >>> 1))

/-- R129: the flag is 1 when `V[y] >= V[x]`. -/
def execSubn (x y : Nibble) (s : State) : Host.Outcome State Fault Refusal :=
  .next (writeFlagThen (advance s) (noBorrowFlag (getV s y) (getV s x)) x (getV s y - getV s x))

/-- R130: the flag is bit 7 of the source, captured before the shift. -/
def execShl (x y : Nibble) (s : State) : Host.Outcome State Fault Refusal :=
  .next (writeFlagThen (advance s) (leftLostBit (shiftOperand s x y)) x (shiftOperand s x y <<< 1))

/-- R131: a fresh random byte, a free value, ANDed with the immediate (log entry 2). -/
def execRnd (x : Nibble) (kk : Byte) (s : State) : Host.Outcome State Fault Refusal :=
  .next (countDraw (setV (advance s) x (Config.rnd s.draws &&& kk)))

end Sys2Proof.Machine
end

