-- ==== Sys2Proof/Machine/ControlFlow.lean ====
section
/-! DEFINITION. The meanings of the control-flow instructions (R100 to R108) and of the unmatched word (R94).  In every
meaning `s` is the state before the step: its `pc` is the instruction's own address. -/

namespace Sys2Proof.Machine

/-- R94: nothing after the advance. -/
def execNop (_w : Word) (s : State) : Host.Outcome State Fault Refusal := .next (advance s)

/-- R100. -/
def execRet (s : State) : Host.Outcome State Fault Refusal :=
  match popPc (advance s) with
  | some t => .next t
  | none => .next (raiseFault .stackUnderflow (encode .ret) 0 s)

/-- R101. -/
def execJp (nnn : Addr) (s : State) : Host.Outcome State Fault Refusal :=
  .next (jumpTo (addrOperand nnn) (advance s))

/-- R102. -/
def execCall (nnn : Addr) (s : State) : Host.Outcome State Fault Refusal :=
  match pushPc (advance s) with
  | some t => .next (jumpTo (addrOperand nnn) t)
  | none => .next (raiseFault .stackOverflow (encode (.call nnn)) 16 s)

/-- R103. -/
def execSeImm (x : Nibble) (kk : Byte) (s : State) : Host.Outcome State Fault Refusal :=
  .next (skipIf (getV s x == kk) (advance s))

/-- R104. -/
def execSneImm (x : Nibble) (kk : Byte) (s : State) : Host.Outcome State Fault Refusal :=
  .next (skipIf (getV s x != kk) (advance s))

/-- R105. -/
def execSeReg (x y : Nibble) (s : State) : Host.Outcome State Fault Refusal :=
  .next (skipIf (getV s x == getV s y) (advance s))

/-- R106. -/
def execSneReg (x y : Nibble) (s : State) : Host.Outcome State Fault Refusal :=
  .next (skipIf (getV s x != getV s y) (advance s))

/-- R107: always `V[0]`, and the sum is not masked to 12 bits. -/
def execJpV0 (nnn : Addr) (s : State) : Host.Outcome State Fault Refusal :=
  .next (jumpTo (addrOperand nnn + wideV s 0) (advance s))

end Sys2Proof.Machine
end

