-- ==== Sys2Proof/Machine/Display.lean ====
section
/-! DEFINITION. The meanings of the display instructions (R150 to R156). -/

namespace Sys2Proof.Machine

/-- R150: every cell 0, the redraw flag raised, `V[F]` not written. -/
def execCls (s : State) : Host.Outcome State Fault Refusal :=
  .next (setFramebuffer Framebuffer.blank (advance s))

/-- R151: the origin is read and all sprite bytes are read and checked first; then the cells are toggled, `V[F]` gets the
collision and the redraw flag is raised, whatever was toggled. -/
def execDrw (x y n : Nibble) (s : State) : Host.Outcome State Fault Refusal :=
  match firstRaise checkRead (indexBase s) n.toNat with
  | some (code, info) => .next (raiseFault code (encode (.drw x y n)) info s)
  | none =>
    let d := drawRows (Memory.readBlock s.mem (indexBase s) n.toNat) (getV s x).toNat (getV s y).toNat (s.fb, false)
    .next (setFramebuffer d.1 (setV (advance s) flagReg (flagByte d.2)))

end Sys2Proof.Machine
end

