-- ==== Sys2Proof/Machine/IndexMemory.lean ====
section
/-! DEFINITION. The meanings of the index-register and memory instructions (R140 to R145).  An instruction checks every
address it will touch before it changes anything (R58, R184). -/

namespace Sys2Proof.Machine

/-- R140. -/
def execLdI (nnn : Addr) (s : State) : Host.Outcome State Fault Refusal :=
  .next (setI (addrOperand nnn) (advance s))

/-- R141: modulo 2^16, not masked to 12 bits, no flag. -/
def execAddI (x : Nibble) (s : State) : Host.Outcome State Fault Refusal :=
  .next (setI (s.i + wideV s x) (advance s))

/-- R142: the unmasked product. -/
def execLdF (x : Nibble) (s : State) : Host.Outcome State Fault Refusal :=
  .next (setI (wideV s x * 5) (advance s))

/-- R143: three digits at `I`, `I + 1`, `I + 2`; `I` unchanged. -/
def execLdB (x : Nibble) (s : State) : Host.Outcome State Fault Refusal :=
  match firstRaise checkWrite (indexBase s) 3 with
  | some (code, info) => .next (raiseFault code (encode (.ldB x)) info s)
  | none => .next (setMem (Memory.writeBlock s.mem (indexBase s) (bcdDigits (getV s x))) (advance s))

/-- R144: `V[0]` to `V[x]` to memory. -/
def execStRegs (x : Nibble) (s : State) : Host.Outcome State Fault Refusal :=
  match firstRaise checkWrite (indexBase s) (x.toNat + 1) with
  | some (code, info) => .next (raiseFault code (encode (.stRegs x)) info s)
  | none =>
    .next (advanceIndex (setMem (Memory.writeBlock s.mem (indexBase s) (registerBlock s x)) (advance s)) x)

/-- R145: memory to `V[0]` to `V[x]`. -/
def execLdRegs (x : Nibble) (s : State) : Host.Outcome State Fault Refusal :=
  match firstRaise checkRead (indexBase s) (x.toNat + 1) with
  | some (code, info) => .next (raiseFault code (encode (.ldRegs x)) info s)
  | none => .next (advanceIndex (loadRegisters (advance s) (indexBase s) x) x)

end Sys2Proof.Machine
end

