-- ==== Sys2Proof/Machine/Keypad.lean ====
section
/-! DEFINITION. The meanings of the keypad instructions (R170 to R173). -/

namespace Sys2Proof.Machine

/-- R170: a register value above 15 names no key and raises `KEY_RANGE`. -/
def execSkp (x : Nibble) (s : State) : Host.Outcome State Fault Refusal :=
  match keyOperand s x with
  | some pressed => .next (skipIf pressed (advance s))
  | none => .next (raiseFault .keyRange (encode (.skp x)) (getV s x).toNat s)

/-- R171: the condition of R170 negated. -/
def execSknp (x : Nibble) (s : State) : Host.Outcome State Fault Refusal :=
  match keyOperand s x with
  | some pressed => .next (skipIf (!pressed) (advance s))
  | none => .next (raiseFault .keyRange (encode (.sknp x)) (getV s x).toNat s)

/-- R172: with a key pressed, the lowest one's number; with none, `pc` is taken back by 2 to the instruction itself. -/
def execLdVxK (x : Nibble) (s : State) : Host.Outcome State Fault Refusal :=
  match lowestKey s with
  | some k => .next (setV (advance s) x (BitVec.ofNat 8 k))
  | none => .next (jumpTo ((advance s).pc - 2) (advance s))

end Sys2Proof.Machine
end

