-- ==== Sys2Proof/Machine/Timers.lean ====
section
/-! DEFINITION. The meanings of the timer instructions (R160 to R162). -/

namespace Sys2Proof.Machine

/-- R160. -/
def execLdVxDT (x : Nibble) (s : State) : Host.Outcome State Fault Refusal :=
  .next (setV (advance s) x s.dt)

/-- R161. -/
def execLdDT (x : Nibble) (s : State) : Host.Outcome State Fault Refusal :=
  .next (setDT (getV s x) (advance s))

/-- R162. -/
def execLdST (x : Nibble) (s : State) : Host.Outcome State Fault Refusal :=
  .next (setST (getV s x) (advance s))

end Sys2Proof.Machine
end

