-- ==== Sys2Proof/Machine/Cycle.lean ====
section
/-! DEFINITION. The events (R6): the step cycle (R90 to R97), the timer driver's tick (R188), the host's events (R191, R193,
R210), the placing of one instruction for the next `STEP`, and the outputs of the core (R9, R192, R194). -/

namespace Sys2Proof.Machine

/-- The event `STEP` (R90): nothing on a faulted core (R95); otherwise fetch, which may fault (R91), and the meaning of the
decoded word, which advances `pc` first (R92, R93). -/
def stepEvent (s : State) : Host.Outcome State Fault Refusal :=
  if s.fault.isSome then .next s
  else
    match fetch s with
    | none => .next (raiseFault .fetchRange 0 s.pc.toNat s)
    | some w => exec (decode w) s

/-- A timer's countdown by one, never below zero (R188). -/
def countDown (t : Byte) : Byte := if t = 0 then 0 else t - 1

/-- The event `TICK` (R188): each timer on its own, on a faulted core as on a running one (R185). -/
def tickEvent (s : State) : State := { s with dt := countDown s.dt, st := countDown s.st }

/-- The events `KEY_SET(k)` and `KEY_CLEAR(k)` (R191). -/
def keyEvent (k : Nibble) (pressed : Bool) (s : State) : State :=
  { s with keypad := s.keypad.set k.toNat pressed k.isLt }

/-- The event `REDRAW_ACK` (R193). -/
def redrawAckEvent (s : State) : State := { s with redraw := false }

/-- The event `RESET(PROGRAM)` (R210, R211); a longer image than 3584 bytes has no meaning (R212, U18). -/
def resetEvent (program : List Byte) (s : State) : Host.Outcome State Fault Refusal :=
  if program.length ≤ programMax then .next (resetWith program s) else .refused .imageTooLong

/-- One event, atomic (R8). -/
def perform (e : Event) (s : State) : Host.Outcome State Fault Refusal :=
  match e with
  | .step => stepEvent s
  | .tick => .next (tickEvent s)
  | .keySet k => .next (keyEvent k true s)
  | .keyClear k => .next (keyEvent k false s)
  | .redrawAck => .next (redrawAckEvent s)
  | .reset program => resetEvent program s

/-- The event that happens next, and the state with it taken off the schedule; with nothing scheduled it is a `STEP`
(log entry 1). -/
def nextEvent (s : State) : Event × State :=
  match s.schedule with
  | [] => (.step, s)
  | e :: rest => (e, { s with schedule := rest })

/-- `s` with the word `w` placed where the next step fetches: a `STEP` comes first, the core is not faulted, `pc` is an
address a fetch accepts, and the word's two bytes stand there.  Nothing else changes (log entry 9). -/
def placeWord (w : Word) (s : State) : State :=
  let pc := if s.pc.toNat > lastFetch then resetPc else s.pc
  { s with
    pc := pc
    fault := none
    schedule := .step :: s.schedule
    mem := Memory.writeBlock s.mem pc.toNat (wordBytes w) }

/-- The output `fb`: the 2048 cells in row-major order, cell (x, y) at index `y * 64 + x` (R30, R192). -/
def snapshot (s : State) : List Bool := (s.fb.toList.map Vector.toList).flatten

/-- The output `sound_timer` (R9, R194). -/
def soundTimer (s : State) : Byte := s.st

/-- The derived output `tone`: the consumer sounds a tone (R194). -/
def tone (s : State) : Bool := s.st != 0

/-- The output `redraw_pending` (R9, R192). -/
def redrawPending (s : State) : Bool := s.redraw

/-- The output `fault` (R9, R184). -/
def faultOutput (s : State) : Option FaultRecord := s.fault

end Sys2Proof.Machine
end

