-- ==== Sys2Proof/Machine/Step.lean ====
section
/-! DEFINITION. One step of the machine: one event of the schedule, or a `STEP` when nothing is scheduled (R6 to R8). -/

namespace Sys2Proof.Machine

/-- One step: the next event, performed (log entry 1). -/
def step (s : State) : Host.Outcome State Fault Refusal := perform (nextEvent s).1 (nextEvent s).2

/-- `s` with a table word stored where `step` fetches its next instruction, so that `step` runs exactly it (log entry 9). -/
def State.withFetchWord (s : State) (nbits w : Nat) : State := placeWord (tableWord nbits w) s

end Sys2Proof.Machine
end

