-- ==== Sys2Proof/Safety.lean ====
section
/-! DEFINITION. What counts as a good state and a correct effect, in the terms the claims use. -/

namespace Sys2Proof

open Machine

/-! ### Effects -/

/-- `t` is `s` with `pc` advanced by 2 and the register `V[x]` holding `w`; every other register and every other element
is as in `s`. -/
def WritesRegister (s t : State) (x : Nibble) (w : Byte) : Prop :=
  t.pc = s.pc + 2 ∧ getV t x = w ∧ (∀ r, r ≠ x → getV t r = getV s r) ∧ s = { t with v := s.v, pc := s.pc }

/-- `t` is `s` with `pc` advanced by 2, `V[x]` holding `w` and, when `x` is not 15, `V[F]` holding 1 or 0 by `flag`
(R132: the destination write comes last); every other register and every other element is as in `s`. -/
def WritesFlagAndRegister (s t : State) (flag : Prop) (x : Nibble) (w : Byte) : Prop :=
  t.pc = s.pc + 2 ∧ getV t x = w ∧
  (x ≠ flagReg → (flag → getV t flagReg = 1) ∧ (¬flag → getV t flagReg = 0)) ∧
  (∀ r, r ≠ x → r ≠ flagReg → getV t r = getV s r) ∧ s = { t with v := s.v, pc := s.pc }

/-- Fault entry (R184): `t` is `s`, `pc` included, with the latch set to the cause, the address `pc`, the word and the
cause's `info`. -/
def FaultsWith (s t : State) (code : FaultCode) (word : Word) (info : Nat) : Prop :=
  t.fault = some { code := code, pc0 := s.pc, word := word, info := info } ∧ s = { t with fault := s.fault }

/-- The registers an instruction may write (R20 to R22): its destination, `V[F]` for the six that write the flag, and the
block of load-registers. -/
def Instr.mayWrite : Instr → Nibble → Bool
  | .ldImm x _, r | .addImm x _, r | .rnd x _, r => r == x
  | .ldReg x _, r | .orReg x _, r | .andReg x _, r | .xorReg x _, r => r == x
  | .addReg x _, r | .sub x _, r | .shr x _, r | .subn x _, r | .shl x _, r => r == x || r == flagReg
  | .drw _ _ _, r => r == flagReg
  | .ldVxDT x, r | .ldVxK x, r => r == x
  | .ldRegs x, r => decide (r.toNat ≤ x.toNat)
  | .cls, _ | .ret, _ | .jp _, _ | .call _, _ | .jpV0 _, _ | .ldI _, _ | .nop _, _ => false
  | .seImm _ _, _ | .sneImm _ _, _ | .seReg _ _, _ | .sneReg _ _, _ | .skp _, _ | .sknp _, _ => false
  | .ldDT _, _ | .ldST _, _ | .addI _, _ | .ldF _, _ | .ldB _, _ | .stRegs _, _ => false

/-- The fault an instruction raises in a state, as R181 tabulates them (the fetch fault apart), with the cause's `info`. -/
def Instr.raises : Instr → State → Option (FaultCode × Nat)
  | .ret, s => if s.sp.val = 0 then some (.stackUnderflow, 0) else none
  | .call _, s => if s.sp.val = 16 then some (.stackOverflow, 16) else none
  | .skp x, s | .sknp x, s => if 15 < (getV s x).toNat then some (.keyRange, (getV s x).toNat) else none
  | .drw _ _ n, s =>
    if n.toNat ≠ 0 ∧ 0xFFF < s.i.toNat + n.toNat - 1 then some (.readRange, max s.i.toNat 0x1000) else none
  | .ldRegs x, s => if 0xFFF < s.i.toNat + x.toNat then some (.readRange, max s.i.toNat 0x1000) else none
  | .ldB _, s =>
    if s.i.toNat ≤ 0x04F then some (.glyphWrite, s.i.toNat)
    else if 0xFFF < s.i.toNat + 2 then some (.writeRange, max s.i.toNat 0x1000) else none
  | .stRegs x, s =>
    if s.i.toNat ≤ 0x04F then some (.glyphWrite, s.i.toNat)
    else if 0xFFF < s.i.toNat + x.toNat then some (.writeRange, max s.i.toNat 0x1000) else none
  | .cls, _ | .jp _, _ | .jpV0 _, _ | .ldI _, _ | .nop _, _ | .rnd _ _, _ => none
  | .seImm _ _, _ | .sneImm _ _, _ | .seReg _ _, _ | .sneReg _ _, _ => none
  | .ldImm _ _, _ | .addImm _ _, _ | .ldReg _ _, _ | .orReg _ _, _ | .andReg _ _, _ | .xorReg _ _, _ => none
  | .addReg _ _, _ | .sub _ _, _ | .shr _ _, _ | .subn _ _, _ | .shl _ _, _ => none
  | .ldVxDT _, _ | .ldVxK _, _ | .ldDT _, _ | .ldST _, _ | .addI _, _ | .ldF _, _ => none

/-! ### The sprite of a draw (R151 to R153) -/

/-- The sprite bit of row `r`, column `c`: bit `7 - c` of the byte at `I + r` (R151, R153). -/
def spriteBit (s : State) (r c : Nat) : Bool := (Memory.read s.mem (indexBase s + r)).getLsbD (7 - c)

/-- The framebuffer cell that row `r`, column `c` of a sprite drawn at `V[x]`, `V[y]` falls on (R152). -/
def spriteCell (s : State) (x y : Nibble) (r c : Nat) : Fin 64 × Fin 32 :=
  (wrapX ((getV s x).toNat + c), wrapY ((getV s y).toNat + r))

/-- The framebuffer cell at a place. -/
def cellAt (fb : Framebuffer) (p : Fin 64 × Fin 32) : Bool := Framebuffer.cell fb p.1 p.2

/-! ### Runs -/

/-- A run that has not failed: the fault latch is empty (R185). -/
def Running (s : State) : Prop := s.fault = none

/-- The state after a sequence of calls, each run on the state the one before it left (R102). -/
def runCalls : List Addr → State → Option State
  | [], s => some s
  | nnn :: rest, s =>
    match exec (.call nnn) s with
    | .next t => runCalls rest t
    | .fault _ | .refused _ => none

/-- The state after `n` returns in a row (R100). -/
def runReturns : Nat → State → Option State
  | 0, s => some s
  | n + 1, s =>
    match exec .ret s with
    | .next t => runReturns n t
    | .fault _ | .refused _ => none

/-- At rest (R224): no fault, `pc` at most 0xFFE, and the word there is a jump to `pc` itself. -/
def AtRest (s : State) : Prop :=
  Running s ∧ s.pc.toNat ≤ 0xFFE ∧
  (Memory.read s.mem s.pc.toNat).toNat = 0x10 + s.pc.toNat / 0x100 ∧
  (Memory.read s.mem (s.pc.toNat + 1)).toNat = s.pc.toNat % 0x100

/-- A core waiting for a key (R173): not faulted, a wait-for-key word at `pc`, and no key pressed. -/
def WaitsForKey (s : State) : Prop :=
  Running s ∧ (∃ w x, fetch s = some w ∧ decode w = .ldVxK x) ∧ ∀ k : Fin 16, s.keypad[k] = false

/-! ### Invariants -/

/-- The memory invariant: the canonical form, and the glyph table as reset installed it (R51, R58; `90_conflicts.md` C3). -/
def MemoryInv (s : State) : Prop :=
  Memory.wf s.mem = true ∧ ∀ a, a < 0x50 → Memory.read s.mem a = glyphs.getD a 0

/-- The control-flow invariant (R24): `pc` is at most 0x10FE, the furthest a jump-with-offset reaches, and every return
address in use is at most 0x1000, so that no program-counter arithmetic ever wraps. -/
def ControlInv (s : State) : Prop :=
  s.pc.toNat ≤ 0x10FE ∧ ∀ j : Fin 16, j.val < s.sp.val → s.stack[j].toNat ≤ 0x1000

/-- The latch invariant (R33, R181, R184): a set latch names the instruction still at `pc`, its word, and a cause that holds
in the state as it is. -/
def LatchInv (s : State) : Prop :=
  ∀ f, s.fault = some f → f.pc0 = s.pc ∧
    ((f.code = .fetchRange ∧ f.word = 0 ∧ f.info = s.pc.toNat ∧ 0xFFE < s.pc.toNat) ∨
     (fetch s = some f.word ∧ (decode f.word).raises s = some (f.code, f.info)))

end Sys2Proof
end

