-- ==== Sys2Proof/Certificates/Slice0/Obligations.lean ====
section
/-! DEFINITION. The statements for the provers, taken from the numbered rules of spec/. -/

open Sys2Proof Sys2Proof.Machine

/-! ### Encoding -/

/-- Words written out from R77's patterns, in memory order (R54), decode to the instructions they stand for. The opcode
values are the spec's own decision D2. -/
def Obligations.WrittenOutWordsDecode : Prop :=
  decodeBytes [0x00, 0xE0] = .ok (.cls, []) ∧ decodeBytes [0x12, 0x34] = .ok (.jp 0x234, []) ∧
  decodeBytes [0x3A, 0x7F] = .ok (.seImm 0xA 0x7F, []) ∧ decodeBytes [0x81, 0x25] = .ok (.sub 1 2, []) ∧
  decodeBytes [0xD1, 0x25] = .ok (.drw 1 2 5, []) ∧ decodeBytes [0xE5, 0xA1] = .ok (.sknp 5, []) ∧
  decodeBytes [0xF2, 0x55] = .ok (.stRegs 2, []) ∧ decodeBytes [0x81, 0x28] = .ok (.nop 0x8128, [])

/-- R72, R77, R83, R84: decoding the encoding of a well-formed instruction gives it back, every operand field at every
value. The opcode values are the spec's own decision D2. -/
def Obligations.DecodeOfEncodeIsIdentity : Prop :=
  ∀ i : Instr, i.wf = true → decode (encode i) = i

/-- R78, R84: encoding what a word decodes to gives the word back; in the families 5 and 9, with the canonical low nibble.
The opcode values and the canonical nibble are the spec's own decisions D2 and D4. -/
def Obligations.EncodeOfDecodeIsCanonicalWord : Prop :=
  ∀ w : Word, (decode w).wf = true ∧
    encode (decode w) = if fieldOp w = 0x5 ∨ fieldOp w = 0x9 then w &&& 0xFFF0 else w

/-- R77: a word selects the row of the opcode map for which `w AND mask = match`, and at most one row matches. The opcode
values are the spec's own decision D2, strict second keys D3. -/
def Obligations.WordSelectsItsOpcodeMapRow : Prop :=
  opcodeMap.length = 34 ∧
  ∀ (w : Word) (k : Nat) (row : Word × Word), opcodeMap[k]? = some row →
    (w &&& row.2 = row.1 ↔ (decode w).row = k + 1)

/-- R78: in the families 5 and 9 the low nibble is ignored, and the canonical encoding has it 0. That the nibble is
ignored is the spec's own decision D4. -/
def Obligations.RegisterSkipsIgnoreLowNibble : Prop :=
  ∀ x y n : Nibble,
    decode (0x5#4 ++ x ++ y ++ n) = .seReg x y ∧ decode (0x9#4 ++ x ++ y ++ n) = .sneReg x y ∧
    encode (.seReg x y) = 0x5#4 ++ x ++ y ++ 0#4 ∧ encode (.sneReg x y) = 0x9#4 ++ x ++ y ++ 0#4

/-- R94 (and R79): the words that decode to no operation are exactly R79's list, and such a word's whole effect is the
advance of `pc`. Which words match no row rests on the spec's own decisions D2 to D4. -/
def Obligations.UnmatchedWordsAreNoOps : Prop :=
  ∀ w : Word, (decode w = .nop w ↔ unmatchedWord w = true) ∧
    ∀ s : State, ∃ t, exec (.nop w) s = .next t ∧ t.pc = s.pc + 2 ∧ s = { t with pc := s.pc }

/-! ### The step cycle -/

/-- R90 to R93: with no event scheduled before it, a step of a running core whose `pc` is in range is the meaning of the
instruction that the two bytes at `pc` decode to, run on the state as it is (each meaning advances `pc` itself). The
schedule is the model's choice (log entry 1). -/
def Obligations.StepRunsTheDecodedInstruction : Prop :=
  ∀ (s : State) (i : Instr), Running s → s.pc.toNat ≤ 0xFFE →
    decodeBytes [Memory.read s.mem s.pc.toNat, Memory.read s.mem (s.pc.toNat + 1)] = .ok (i, []) →
    i.wf = true ∧ (s.schedule = [] → step s = exec i s) ∧
    (∀ rest, s.schedule = .step :: rest → step s = exec i { s with schedule := rest })

/-- R91: fetch raises `FETCH_RANGE` above 0xFFE; otherwise it combines the two bytes at `pc` big-endian. The fault is the
spec's own decision D5. -/
def Obligations.FetchIsBigEndianAndChecked : Prop :=
  ∀ s : State,
    (0xFFE < s.pc.toNat → Running s → ∃ t, perform .step s = .next t ∧ FaultsWith s t .fetchRange 0 s.pc.toNat) ∧
    (s.pc.toNat ≤ 0xFFE → ∃ w, fetch s = some w ∧
      w.toNat = (Memory.read s.mem s.pc.toNat).toNat * 256 + (Memory.read s.mem (s.pc.toNat + 1)).toNat)

/-- R95: a `STEP` of a faulted core changes nothing, the other events act as on a running core, and only `RESET` leaves
the fault. What a faulted core does is the spec's own decision D21. -/
def Obligations.FaultedCoreStaysFaulted : Prop :=
  ∀ (s t : State) (e : Event), s.fault ≠ none → perform e s = .next t →
    (e = .step → t = s) ∧ ((∀ p, e ≠ .reset p) → t.fault = s.fault) ∧ (∀ p, e = .reset p → t.fault = none) ∧
    (e = .tick → t.dt.toNat = s.dt.toNat - 1 ∧ t.st.toNat = s.st.toNat - 1)

/-- R6 to R8, by the model's own schedule (log entry 1): one step performs the event that comes first, on the state with it
taken off; with nothing scheduled it is a `STEP`. -/
def Obligations.StepsFollowTheSchedule : Prop :=
  ∀ s : State, (s.schedule = [] → step s = perform .step s) ∧
    ∀ e rest, s.schedule = e :: rest → step s = perform e { s with schedule := rest }

/-! ### Control flow -/

/-- R100: return pops the most recent return address into `pc`, or raises `STACK_UNDERFLOW` at depth 0. The fault is the
spec's own decision D5, the entry's place D19. -/
def Obligations.ReturnPopsTheCallStack : Prop :=
  ∀ s : State,
    (∀ j : Fin 16, s.sp.val = j.val + 1 → ∃ t, exec .ret s = .next t ∧
      t.sp.val = j.val ∧ t.pc = s.stack[j] ∧ s = { t with sp := s.sp, pc := s.pc }) ∧
    (s.sp.val = 0 → ∃ t, exec .ret s = .next t ∧ FaultsWith s t .stackUnderflow 0x00EE 0)

/-- R101: jump sets `pc` to its 12-bit operand and changes nothing else. -/
def Obligations.JumpSetsThePc : Prop :=
  ∀ (s : State) (nnn : Addr), ∃ t, exec (.jp nnn) s = .next t ∧ t.pc.toNat = nnn.toNat ∧ s = { t with pc := s.pc }

/-- R102: call pushes the address after it and jumps, or raises `STACK_OVERFLOW` at depth 16. The fault is the spec's own
decision D5, the entry's place D19. -/
def Obligations.CallPushesTheNextAddress : Prop :=
  ∀ (s : State) (nnn : Addr),
    (∀ j : Fin 16, s.sp.val = j.val → ∃ t, exec (.call nnn) s = .next t ∧
      t.sp.val = j.val + 1 ∧ t.stack[j] = s.pc + 2 ∧ (∀ k : Fin 16, k ≠ j → t.stack[k] = s.stack[k]) ∧
      t.pc.toNat = nnn.toNat ∧ s = { t with stack := s.stack, sp := s.sp, pc := s.pc }) ∧
    (s.sp.val = 16 → ∃ t, exec (.call nnn) s = .next t ∧ FaultsWith s t .stackOverflow (0x2#4 ++ nnn) 16)

/-- R103 to R106 and R108: a skip adds 2 to the already-advanced `pc` when its condition holds, and changes nothing else.
The condition of the not-equal skips is the spec's own decision D22. -/
def Obligations.SkipsPassOverOneInstruction : Prop :=
  ∀ (s : State) (x y : Nibble) (kk : Byte),
    (∃ t, exec (.seImm x kk) s = .next t ∧ t.pc = (if getV s x = kk then s.pc + 4 else s.pc + 2) ∧
      s = { t with pc := s.pc }) ∧
    (∃ t, exec (.sneImm x kk) s = .next t ∧ t.pc = (if getV s x ≠ kk then s.pc + 4 else s.pc + 2) ∧
      s = { t with pc := s.pc }) ∧
    (∃ t, exec (.seReg x y) s = .next t ∧ t.pc = (if getV s x = getV s y then s.pc + 4 else s.pc + 2) ∧
      s = { t with pc := s.pc }) ∧
    (∃ t, exec (.sneReg x y) s = .next t ∧ t.pc = (if getV s x ≠ getV s y then s.pc + 4 else s.pc + 2) ∧
      s = { t with pc := s.pc })

/-- R107: jump-with-offset goes to its operand plus `V[0]`; the sum is not masked and never wraps. That the sum is not
masked is the spec's own decision D14. -/
def Obligations.JumpWithOffsetAddsVZero : Prop :=
  ∀ (s : State) (nnn : Addr), ∃ t, exec (.jpV0 nnn) s = .next t ∧
    t.pc.toNat = nnn.toNat + (getV s 0).toNat ∧ s = { t with pc := s.pc }

/-- R26, R100, R102: the return that matches a call, in any later state with the call stack as the call left it, resumes
at the address after the call and restores the depth. The rule follows from R100 and R102. -/
def Obligations.ReturnMatchesItsCall : Prop :=
  ∀ (s u : State) (nnn : Addr), s.sp.val < 16 → ∃ t, exec (.call nnn) s = .next t ∧
    (u.stack = t.stack → u.sp = t.sp → ∃ r, exec .ret u = .next r ∧ r.pc = s.pc + 2 ∧ r.sp = s.sp)

/-- R26, R27, R102 (95_test_vectors.md S11): calls nest to any depth up to 16 without a fault, and as many returns come
back to the instruction after the first call, with the depth it had; one call more than 16 faults. The fault is the spec's
own decision D5. -/
def Obligations.NestedCallsUnwind : Prop :=
  ∀ (s : State) (targets : List Addr) (last : Addr), targets ≠ [] → s.sp.val + targets.length ≤ 16 →
    ∃ t, runCalls targets s = some t ∧ t.fault = s.fault ∧ t.sp.val = s.sp.val + targets.length ∧
      (∃ u, runReturns targets.length t = some u ∧ u.fault = s.fault ∧ u.sp = s.sp ∧ u.pc = s.pc + 2) ∧
      (s.sp.val + targets.length = 16 →
        ∃ u, exec (.call last) t = .next u ∧ FaultsWith t u .stackOverflow (0x2#4 ++ last) 16)

/-! ### Registers and flags -/

/-- R120 to R125: load-immediate, add-immediate, copy, OR, AND and XOR write their destination and no flag. -/
def Obligations.PlainRegisterInstructions : Prop :=
  ∀ (s : State) (x y : Nibble) (kk : Byte),
    (∃ t, exec (.ldImm x kk) s = .next t ∧ WritesRegister s t x kk) ∧
    (∃ t, exec (.addImm x kk) s = .next t ∧
      WritesRegister s t x (BitVec.ofNat 8 ((getV s x).toNat + kk.toNat))) ∧
    (∃ t, exec (.ldReg x y) s = .next t ∧ WritesRegister s t x (getV s y)) ∧
    (∃ t, exec (.orReg x y) s = .next t ∧ WritesRegister s t x (getV s x ||| getV s y)) ∧
    (∃ t, exec (.andReg x y) s = .next t ∧ WritesRegister s t x (getV s x &&& getV s y)) ∧
    (∃ t, exec (.xorReg x y) s = .next t ∧ WritesRegister s t x (getV s x ^^^ getV s y))

/-- R126: the flag is the carry of the sum before truncation, the destination the sum modulo 256. The order of the writes
when `x` or `y` is 15 is the spec's own decision D8. -/
def Obligations.AddRegistersSetsCarry : Prop :=
  ∀ (s : State) (x y : Nibble), ∃ t, exec (.addReg x y) s = .next t ∧
    WritesFlagAndRegister s t ((getV s x).toNat + (getV s y).toNat > 255) x
      (BitVec.ofNat 8 (((getV s x).toNat + (getV s y).toNat) % 256))

/-- R127, R129: the flag is 1 exactly when no borrow occurs, the destination the difference modulo 256. The order of the
writes when `x` or `y` is 15 is the spec's own decision D8. -/
def Obligations.SubtractionsSetNotBorrow : Prop :=
  ∀ (s : State) (x y : Nibble),
    (∃ t, exec (.sub x y) s = .next t ∧ WritesFlagAndRegister s t ((getV s x).toNat ≥ (getV s y).toNat) x
      (BitVec.ofInt 8 (((getV s x).toNat - (getV s y).toNat : Int) % 256))) ∧
    (∃ t, exec (.subn x y) s = .next t ∧ WritesFlagAndRegister s t ((getV s y).toNat ≥ (getV s x).toNat) x
      (BitVec.ofInt 8 (((getV s y).toNat - (getV s x).toNat : Int) % 256)))

/-- R128, R130: the flag is the bit the shift loses, the destination the source moved by one place; the source is `V[x]`
or `V[y]` by `SHIFT_SRC`. `SHIFT_SRC` is the spec's own decision D9 (log entry 3), the order of the writes when `x` or `y`
is 15 D8. -/
def Obligations.ShiftsCaptureTheLostBit : Prop :=
  ∀ (s : State) (x y : Nibble) (src : Byte),
    (s.params.shiftSrc = .x → src = getV s x) → (s.params.shiftSrc = .y → src = getV s y) →
    (∃ t, exec (.shr x y) s = .next t ∧
      WritesFlagAndRegister s t (src.toNat % 2 = 1) x (BitVec.ofNat 8 (src.toNat / 2))) ∧
    (∃ t, exec (.shl x y) s = .next t ∧
      WritesFlagAndRegister s t (128 ≤ src.toNat) x (BitVec.ofNat 8 (src.toNat * 2 % 256)))

/-- R131: the destination is the random byte ANDed with the immediate, so no bit is set outside the immediate.  The random
byte is the free value `Config.rnd`, of which nothing is assumed (the model's choice of how it is drawn: log entry 2). -/
def Obligations.RandomAndKeepsToItsMask : Prop :=
  ∀ (s : State) (x : Nibble) (kk : Byte), ∃ t, exec (.rnd x kk) s = .next t ∧
    getV t x = Config.rnd s.draws &&& kk ∧ (∀ k, kk.getLsbD k = false → (getV t x).getLsbD k = false) ∧
    (∀ r, r ≠ x → getV t r = getV s r) ∧ t.pc = s.pc + 2 ∧ t.draws = s.draws + 1 ∧
    s = { t with v := s.v, pc := s.pc, draws := s.draws }

/-- R20 to R22: an instruction leaves every general register unchanged but its destination, `V[F]` for the six
instructions that write the flag, and the block of load-registers. It is a frame gathered from the handler rules. -/
def Obligations.RegistersChangeOnlyWhereNamed : Prop :=
  ∀ (i : Instr) (s t : State) (r : Nibble), exec i s = .next t → i.mayWrite r = false → getV t r = getV s r

/-! ### Index register and memory -/

/-- R140 to R142: set-index, add-to-index and set-index-to-glyph write `I` and nothing else. That `I` is not masked to 12
bits is the spec's own decision D13. -/
def Obligations.IndexInstructionsWriteI : Prop :=
  ∀ (s : State) (nnn : Addr) (x : Nibble),
    (∃ t, exec (.ldI nnn) s = .next t ∧ t.i.toNat = nnn.toNat ∧ t.pc = s.pc + 2 ∧
      s = { t with i := s.i, pc := s.pc }) ∧
    (∃ t, exec (.addI x) s = .next t ∧ t.i.toNat = (s.i.toNat + (getV s x).toNat) % 2 ^ 16 ∧ t.pc = s.pc + 2 ∧
      s = { t with i := s.i, pc := s.pc }) ∧
    (∃ t, exec (.ldF x) s = .next t ∧ t.i.toNat = (getV s x).toNat * 5 ∧ t.pc = s.pc + 2 ∧
      s = { t with i := s.i, pc := s.pc })

/-- R143: store-bcd stores the three digits of `V[x]` at `I`, `I + 1`, `I + 2` and leaves `I` and every other byte; in the
glyph table or past 0xFFF it faults and nothing is written. The faults are the spec's own decisions D5 and D6. -/
def Obligations.StoreBcdStoresThreeDigits : Prop :=
  ∀ (s : State) (x : Nibble),
    (indexBase s ≤ 0x04F → ∃ t, exec (.ldB x) s = .next t ∧
      FaultsWith s t .glyphWrite (0xF#4 ++ x ++ 0x33#8) (indexBase s)) ∧
    (0xFFF < indexBase s + 2 → ∃ t, exec (.ldB x) s = .next t ∧
      FaultsWith s t .writeRange (0xF#4 ++ x ++ 0x33#8) (max (indexBase s) 0x1000)) ∧
    (Memory.wf s.mem = true → 0x050 ≤ indexBase s → indexBase s + 2 ≤ 0xFFF → ∃ t, exec (.ldB x) s = .next t ∧
      (Memory.read t.mem (indexBase s)).toNat = (getV s x).toNat / 100 ∧
      (Memory.read t.mem (indexBase s + 1)).toNat = (getV s x).toNat / 10 % 10 ∧
      (Memory.read t.mem (indexBase s + 2)).toNat = (getV s x).toNat % 10 ∧
      (∀ a, a < indexBase s ∨ indexBase s + 3 ≤ a → Memory.read t.mem a = Memory.read s.mem a) ∧
      t.pc = s.pc + 2 ∧ s = { t with mem := s.mem, pc := s.pc })

/-- R144: store-registers stores `V[0]` to `V[x]` at ascending addresses from `I`, leaves every other byte and the
registers, and advances `I` by `x + 1` when `INDEX_INCREMENT` holds; out of range it faults and nothing is written. The
faults are the spec's own decisions D5 and D6; `INDEX_INCREMENT` is D17 (log entry 3). -/
def Obligations.StoreRegistersStoresTheBlock : Prop :=
  ∀ (s : State) (x : Nibble),
    (indexBase s ≤ 0x04F → ∃ t, exec (.stRegs x) s = .next t ∧
      FaultsWith s t .glyphWrite (0xF#4 ++ x ++ 0x55#8) (indexBase s)) ∧
    (0xFFF < indexBase s + x.toNat → ∃ t, exec (.stRegs x) s = .next t ∧
      FaultsWith s t .writeRange (0xF#4 ++ x ++ 0x55#8) (max (indexBase s) 0x1000)) ∧
    (Memory.wf s.mem = true → 0x050 ≤ indexBase s → indexBase s + x.toNat ≤ 0xFFF →
      ∃ t, exec (.stRegs x) s = .next t ∧
      (∀ r : Nibble, r.toNat ≤ x.toNat → Memory.read t.mem (indexBase s + r.toNat) = getV s r) ∧
      (∀ a, a < indexBase s ∨ indexBase s + x.toNat + 1 ≤ a → Memory.read t.mem a = Memory.read s.mem a) ∧
      (s.params.indexIncrement = true → t.i.toNat = s.i.toNat + x.toNat + 1) ∧
      (s.params.indexIncrement = false → t.i = s.i) ∧
      t.pc = s.pc + 2 ∧ s = { t with mem := s.mem, i := s.i, pc := s.pc })

/-- R145: load-registers loads `V[0]` to `V[x]` from ascending addresses from `I`, leaves the other registers and memory,
and advances `I` by `x + 1` when `INDEX_INCREMENT` holds; past 0xFFF it faults and no register is changed. The fault is
the spec's own decision D5; `INDEX_INCREMENT` is D17 (log entry 3). -/
def Obligations.LoadRegistersLoadsTheBlock : Prop :=
  ∀ (s : State) (x : Nibble),
    (0xFFF < indexBase s + x.toNat → ∃ t, exec (.ldRegs x) s = .next t ∧
      FaultsWith s t .readRange (0xF#4 ++ x ++ 0x65#8) (max (indexBase s) 0x1000)) ∧
    (indexBase s + x.toNat ≤ 0xFFF → ∃ t, exec (.ldRegs x) s = .next t ∧
      (∀ r : Nibble, r.toNat ≤ x.toNat → getV t r = Memory.read s.mem (indexBase s + r.toNat)) ∧
      (∀ r : Nibble, x.toNat < r.toNat → getV t r = getV s r) ∧
      (s.params.indexIncrement = true → t.i.toNat = s.i.toNat + x.toNat + 1) ∧
      (s.params.indexIncrement = false → t.i = s.i) ∧
      t.pc = s.pc + 2 ∧ s = { t with v := s.v, i := s.i, pc := s.pc })

/-- R59: the instructions that store nothing leave every byte of memory as it was; the two that store leave every byte
outside the block they store, computed from `I` before the instruction. It is a frame gathered from the handler rules. -/
def Obligations.MemoryChangesOnlyInTheStoredBlock : Prop :=
  ∀ (i : Instr) (s t : State) (a : Nat), Memory.wf s.mem = true → exec i s = .next t →
    (∀ x, i = .ldB x → a < indexBase s ∨ indexBase s + 3 ≤ a) →
    (∀ x, i = .stRegs x → a < indexBase s ∨ indexBase s + x.toNat + 1 ≤ a) →
    Memory.read t.mem a = Memory.read s.mem a

/-- R63: bytes stored by store-registers are the bytes a later fetch reads, with nothing done in between to make them
seen. The spec marks R63 as derived. -/
def Obligations.StoredBytesAreFetched : Prop :=
  ∀ (s u : State) (x j k : Nibble), Memory.wf s.mem = true → 0x050 ≤ indexBase s → indexBase s + x.toNat ≤ 0xFFF →
    j.toNat + 1 = k.toNat → k.toNat ≤ x.toNat → u.pc.toNat = indexBase s + j.toNat →
    ∃ t, exec (.stRegs x) s = .next t ∧ (u.mem = t.mem → fetch u = some (bytesWord (getV s j) (getV s k)))

/-! ### Display -/

/-- R150: clear-display zeroes all 2048 cells and raises the redraw flag; `V[F]` and everything else stay. -/
def Obligations.ClearDisplayClears : Prop :=
  ∀ s : State, ∃ t, exec .cls s = .next t ∧ (∀ x y, Framebuffer.cell t.fb x y = false) ∧ t.redraw = true ∧
    t.pc = s.pc + 2 ∧ s = { t with fb := s.fb, redraw := s.redraw, pc := s.pc }

/-- R151 to R154: a draw in range toggles exactly the cells under a set sprite bit, each coordinate wrapped on its own;
the collision flag is 1 exactly when some such cell was 1; the redraw flag is raised. Out of range it faults. Bit order,
operand sampling and the read check are the spec's own decisions D12, D8 and D23, the fault D5. -/
def Obligations.DrawSpriteTogglesItsCells : Prop :=
  ∀ (s : State) (x y n : Nibble),
    (n ≠ 0 → 0x1000 < indexBase s + n.toNat → ∃ t, exec (.drw x y n) s = .next t ∧
      FaultsWith s t .readRange (0xD#4 ++ x ++ y ++ n) (max (indexBase s) 0x1000)) ∧
    ((n = 0 ∨ indexBase s + n.toNat ≤ 0x1000) → ∃ t, exec (.drw x y n) s = .next t ∧
      (∀ r c, r < n.toNat → c < 8 →
        cellAt t.fb (spriteCell s x y r c) = (cellAt s.fb (spriteCell s x y r c) ^^ spriteBit s r c)) ∧
      (∀ p, (∀ r c, r < n.toNat → c < 8 → p ≠ spriteCell s x y r c) → cellAt t.fb p = cellAt s.fb p) ∧
      (getV t flagReg = 1 ↔
        ∃ r c, r < n.toNat ∧ c < 8 ∧ spriteBit s r c = true ∧ cellAt s.fb (spriteCell s x y r c) = true) ∧
      (getV t flagReg = 0 ∨ getV t flagReg = 1) ∧ (∀ q, q ≠ flagReg → getV t q = getV s q) ∧ t.redraw = true ∧
      t.pc = s.pc + 2 ∧ s = { t with v := s.v, fb := s.fb, redraw := s.redraw, pc := s.pc })

/-- R155: a sprite of no rows changes no cell, clears `V[F]`, raises the redraw flag, and never faults, whatever `I`
holds. It is the spec's own decision D23. -/
def Obligations.EmptySpriteDrawsNothing : Prop :=
  ∀ (s : State) (x y : Nibble), ∃ t, exec (.drw x y 0) s = .next t ∧ t.fb = s.fb ∧ t.redraw = true ∧
    WritesRegister { s with redraw := true } t flagReg 0

/-- R156: a second draw of the same sprite at the same place, right after the first (`x` and `y` not 15) or in any state
with the framebuffer the first one left and the same `I`, origin and sprite bytes, restores the framebuffer, and its flag
is 1 exactly when some set sprite bit lies on a cell that is 1 after the first draw, that is, on a cell that was 0 before
it. The spec marks the precise form as derived; bit order (D12) and operand sampling (D8, which `x` or `y` = 15 in the
second case rests on) are its own decisions. -/
def Obligations.DrawingTwiceRestores : Prop :=
  ∀ (s u : State) (x y n : Nibble), (n = 0 ∨ indexBase s + n.toNat ≤ 0x1000) →
    ∃ t, exec (.drw x y n) s = .next t ∧
      ((u = t ∧ x ≠ flagReg ∧ y ≠ flagReg) ∨
       (u.fb = t.fb ∧ u.i = s.i ∧ getV u x = getV s x ∧ getV u y = getV s y ∧
        ∀ r, r < n.toNat → Memory.read u.mem (indexBase s + r) = Memory.read s.mem (indexBase s + r)) →
        ∃ r, exec (.drw x y n) u = .next r ∧ r.fb = s.fb ∧
          (getV r flagReg = 1 ∨ getV r flagReg = 0) ∧
          (getV r flagReg = 1 ↔
            ∃ k c, k < n.toNat ∧ c < 8 ∧ spriteBit s k c = true ∧ cellAt t.fb (spriteCell s x y k c) = true) ∧
          (getV r flagReg = 1 ↔
            ∃ k c, k < n.toNat ∧ c < 8 ∧ spriteBit s k c = true ∧ cellAt s.fb (spriteCell s x y k c) = false))

/-- R30, R192: the snapshot a host reads is the 2048 cells in row-major order, cell (x, y) at index `y * 64 + x`. The
index is the spec's own decision D12. -/
def Obligations.SnapshotIsRowMajor : Prop :=
  ∀ (s : State) (x : Fin 64) (y : Fin 32),
    (snapshot s).length = 2048 ∧ (snapshot s)[y.val * 64 + x.val]? = some (Framebuffer.cell s.fb x y)

/-! ### Timers and keypad -/

/-- R160 to R162: load-delay-timer, set-delay-timer and set-sound-timer move one byte and change nothing else. -/
def Obligations.TimerInstructionsMoveOneByte : Prop :=
  ∀ (s : State) (x : Nibble),
    (∃ t, exec (.ldVxDT x) s = .next t ∧ WritesRegister s t x s.dt) ∧
    (∃ t, exec (.ldDT x) s = .next t ∧ t.dt = getV s x ∧ t.pc = s.pc + 2 ∧ s = { t with dt := s.dt, pc := s.pc }) ∧
    (∃ t, exec (.ldST x) s = .next t ∧ t.st = getV s x ∧ t.pc = s.pc + 2 ∧ s = { t with st := s.st, pc := s.pc })

/-- R162, R194: set-sound-timer shows on the sound output, and the tone is on exactly when the value is not 0. -/
def Obligations.SoundOutputFollowsTheTimer : Prop :=
  ∀ (s : State) (x : Nibble), ∃ t, exec (.ldST x) s = .next t ∧ soundTimer t = getV s x ∧
    (tone t = true ↔ getV s x ≠ 0)

/-- R188: a tick decrements each timer that is not zero, on its own, and changes nothing else. -/
def Obligations.TickCountsDownBothTimers : Prop :=
  ∀ s : State, ∃ t, perform .tick s = .next t ∧
    (0 < s.dt.toNat → t.dt.toNat + 1 = s.dt.toNat) ∧ (s.dt.toNat = 0 → t.dt.toNat = 0) ∧
    (0 < s.st.toNat → t.st.toNat + 1 = s.st.toNat) ∧ (s.st.toNat = 0 → t.st.toNat = 0) ∧
    s = { t with dt := s.dt, st := s.st }

/-- R170, R171: the keypad skips test the key that the register's value names; a value above 15 raises `KEY_RANGE`. The
fault is the spec's own decision D7, the negated condition D22. -/
def Obligations.KeypadSkipsTestTheNamedKey : Prop :=
  ∀ (s : State) (x : Nibble),
    (∀ k : Fin 16, (getV s x).toNat = k.val →
      (∃ t, exec (.skp x) s = .next t ∧ t.pc = (if s.keypad[k] = true then s.pc + 4 else s.pc + 2) ∧
        s = { t with pc := s.pc }) ∧
      (∃ t, exec (.sknp x) s = .next t ∧ t.pc = (if s.keypad[k] = false then s.pc + 4 else s.pc + 2) ∧
        s = { t with pc := s.pc })) ∧
    (15 < (getV s x).toNat →
      (∃ t, exec (.skp x) s = .next t ∧ FaultsWith s t .keyRange (0xE#4 ++ x ++ 0x9E#8) (getV s x).toNat) ∧
      (∃ t, exec (.sknp x) s = .next t ∧ FaultsWith s t .keyRange (0xE#4 ++ x ++ 0xA1#8) (getV s x).toNat))

/-- R172: wait-for-key takes the lowest pressed key; with none pressed the whole state stays, `pc` at the instruction. -/
def Obligations.WaitForKeyTakesTheLowestKey : Prop :=
  ∀ (s : State) (x : Nibble),
    (∀ k : Fin 16, s.keypad[k] = true → (∀ j : Fin 16, j < k → s.keypad[j] = false) →
      ∃ t, exec (.ldVxK x) s = .next t ∧ WritesRegister s t x (BitVec.ofNat 8 k.val)) ∧
    ((∀ k : Fin 16, s.keypad[k] = false) → exec (.ldVxK x) s = .next s)

/-- R173: each step of a waiting core is a complete step whose net effect is nothing. The schedule is the model's choice
(log entry 1). -/
def Obligations.WaitingCoreStays : Prop :=
  ∀ s : State, WaitsForKey s → s.schedule = [] → step s = .next s

/-- R191: `KEY_SET(k)` and `KEY_CLEAR(k)` write one keypad entry and change nothing else. -/
def Obligations.KeyEventsWriteOneEntry : Prop :=
  ∀ (s : State) (k : Nibble), ∃ t u, perform (.keySet k) s = .next t ∧ perform (.keyClear k) s = .next u ∧
    (∀ j : Fin 16, t.keypad[j] = (if j.val = k.toNat then true else s.keypad[j])) ∧ s = { t with keypad := s.keypad } ∧
    (∀ j : Fin 16, u.keypad[j] = (if j.val = k.toNat then false else s.keypad[j])) ∧ s = { u with keypad := s.keypad }

/-- R193: `REDRAW_ACK` clears the redraw flag and changes nothing else. -/
def Obligations.RedrawAckClearsTheFlag : Prop :=
  ∀ s : State, ∃ t, perform .redrawAck s = .next t ∧ t.redraw = false ∧ s = { t with redraw := s.redraw }

/-! ### Faults -/

/-- R181, R182: an instruction faults exactly where the table of causes says so, with that cause and `info`; everywhere
else it completes without a fault. The faults are the spec's own decisions D5 to D7; the latch's word is log entry 5. -/
def Obligations.InstructionsFaultExactlyAsTabulated : Prop :=
  ∀ (i : Instr) (s : State), ∃ t, exec i s = .next t ∧
    (∀ code info, i.raises s = some (code, info) → FaultsWith s t code (encode i) info) ∧
    (i.raises s = none → t.fault = s.fault)

/-- R184: a step that raises a fault keeps every state element, `pc` included, and records the address of the instruction
and the word fetched there (0 when the fetch itself faulted); a latch already set is never overwritten. Precise faults and
the latch are the spec's own decisions D5 and D21. -/
def Obligations.FaultsArePrecise : Prop :=
  ∀ s t : State, perform .step s = .next t →
    (∀ f, Running s → t.fault = some f → FaultsWith s t f.code f.word f.info ∧
      (fetch s = some f.word ∨ (fetch s = none ∧ f.code = .fetchRange ∧ f.word = 0))) ∧
    (s.fault ≠ none → t = s)

/-! ### Whole-machine rules -/

/-- R24, R92: every instruction that is not a transfer of control, a skip or wait-for-key advances `pc` by exactly 2 when it
does not fault. -/
def Obligations.OtherInstructionsAdvanceByTwo : Prop :=
  ∀ (i : Instr) (s t : State), exec i s = .next t → i.raises s = none →
    i ≠ .ret → (∀ a, i ≠ .jp a) → (∀ a, i ≠ .call a) → (∀ a, i ≠ .jpV0 a) →
    (∀ x k, i ≠ .seImm x k) → (∀ x k, i ≠ .sneImm x k) → (∀ x y, i ≠ .seReg x y) → (∀ x y, i ≠ .sneReg x y) →
    (∀ x, i ≠ .skp x) → (∀ x, i ≠ .sknp x) → (∀ x, i ≠ .ldVxK x) → t.pc = s.pc + 2

/-- R38 (with R25 to R32): each special element is written only by the instructions the write matrix names, the keypad and
the parameters by none, and no instruction clears the redraw flag. The fields `draws`, `params` and `schedule` are the
model's own (log entries 1 to 3). -/
def Obligations.InstructionsKeepToTheWriteMatrix : Prop :=
  ∀ (i : Instr) (s t : State), exec i s = .next t →
    t.keypad = s.keypad ∧ t.params = s.params ∧ t.schedule = s.schedule ∧
    ((∀ x, i ≠ .ldDT x) → t.dt = s.dt) ∧ ((∀ x, i ≠ .ldST x) → t.st = s.st) ∧
    (i ≠ .cls → (∀ x y n, i ≠ .drw x y n) → t.fb = s.fb ∧ t.redraw = s.redraw) ∧
    (s.redraw = true → t.redraw = true) ∧
    (i ≠ .ret → (∀ a, i ≠ .call a) → t.sp = s.sp) ∧ ((∀ a, i ≠ .call a) → t.stack = s.stack) ∧
    ((∀ a, i ≠ .ldI a) → (∀ x, i ≠ .addI x) → (∀ x, i ≠ .ldF x) → (∀ x, i ≠ .stRegs x) → (∀ x, i ≠ .ldRegs x) →
      t.i = s.i) ∧
    ((∀ x k, i ≠ .rnd x k) → t.draws = s.draws)

/-- R97: the keypad matters only to the three keypad instructions, and the random bytes only to random-and: for any other
instruction a different keypad, or a different place in the sequence of random bytes, changes nothing else of the result.
The spec marks R97 as derived; the sequence of random bytes is the model's (log entry 2). -/
def Obligations.InputsMatterOnlyToTheirInstructions : Prop :=
  ∀ (i : Instr) (s t : State) (keys : Vector Bool 16) (d : Nat), exec i s = .next t →
    ((∀ x, i ≠ .skp x) → (∀ x, i ≠ .sknp x) → (∀ x, i ≠ .ldVxK x) →
      exec i { s with keypad := keys } = .next { t with keypad := keys }) ∧
    ((∀ x k, i ≠ .rnd x k) → exec i { s with draws := d } = .next { t with draws := d })

/-- R224: a core at rest is a fixed point of `STEP`. The at-rest condition is the spec's own decision D20. -/
def Obligations.RestIsAFixedPoint : Prop :=
  ∀ s : State, AtRest s → perform .step s = .next s ∧ (s.schedule = [] → step s = .next s)

/-! ### Reset -/

/-- R37, R210, R211: after `RESET(PROGRAM)`, from any state, every element holds the value of R37's table.  (The rows of that
table other than memory, `pc` and `sp` are the spec's own decisions D10 and D5.) -/
def Obligations.ResetSetsEveryElement : Prop :=
  ∀ (s : State) (program : List Byte), program.length ≤ 3584 → ∃ t, perform (.reset program) s = .next t ∧
    (∀ a, a < 0x50 → Memory.read t.mem a = glyphs.getD a 0) ∧
    (∀ a, 0x50 ≤ a → a < 0x200 → Memory.read t.mem a = 0) ∧
    (∀ k w, program[k]? = some w → Memory.read t.mem (0x200 + k) = w) ∧
    (∀ a, 0x200 + program.length ≤ a → Memory.read t.mem a = 0) ∧
    t.pc = 0x0200 ∧ t.sp = 0 ∧ (∀ j : Fin 16, t.stack[j] = 0) ∧ (∀ r, getV t r = 0) ∧ t.i = 0 ∧ t.dt = 0 ∧ t.st = 0 ∧
    (∀ x y, Framebuffer.cell t.fb x y = false) ∧ t.redraw = false ∧ (∀ k : Fin 16, t.keypad[k] = false) ∧
    t.fault = none

/-- R212: an image longer than 3584 bytes is given no meaning. How the model says so, a refusal, is log entry 10. -/
def Obligations.OversizedImageIsRefused : Prop :=
  ∀ (s : State) (program : List Byte), perform (.reset program) s = .refused .imageTooLong ↔ 3584 < program.length

/-! ### Invariants -/

/-- R51, R58 (`90_conflicts.md` C3): every event keeps the memory in canonical form and the glyph table as installed. The
canonical form is the model's choice (log entry 7), the glyph fault the spec's own decision D6. -/
def Obligations.StepKeepsMemoryInv : Prop :=
  ∀ s t : State, MemoryInv s → step s = .next t → MemoryInv t

/-- R24: every event keeps `pc` at or below 0x10FE and every return address in use at or below 0x1000. It is derived from
R24, R91, R102 and R107. -/
def Obligations.StepKeepsControlInv : Prop :=
  ∀ s t : State, ControlInv s → step s = .next t → ControlInv t

/-- R33, R181, R184, R185: every event keeps the latch true to its cause: it names the instruction at `pc` and a cause
that holds in the state as it is. The latch is the spec's own decision D5; its word is log entry 5. -/
def Obligations.StepKeepsLatchInv : Prop :=
  ∀ s t : State, LatchInv s → step s = .next t → LatchInv t

/-- The three invariants hold right after reset. -/
def Obligations.ResetMeetsTheInvariants : Prop :=
  MemoryInv State.reset ∧ ControlInv State.reset ∧ LatchInv State.reset
end

