-- ==== Sys2Proof/Laws/State.lean ====
section
/-! SUPPORT. One lemma per field per named update of the state, so that no later proof unfolds a record update. -/

namespace Sys2Proof.Machine

variable (s : State)

@[simp] theorem advance_v : (advance s).v = s.v := rfl
@[simp] theorem advance_i : (advance s).i = s.i := rfl
@[simp] theorem advance_pc : (advance s).pc = s.pc + 2 := rfl
@[simp] theorem advance_stack : (advance s).stack = s.stack := rfl
@[simp] theorem advance_sp : (advance s).sp = s.sp := rfl
@[simp] theorem advance_dt : (advance s).dt = s.dt := rfl
@[simp] theorem advance_st : (advance s).st = s.st := rfl
@[simp] theorem advance_fb : (advance s).fb = s.fb := rfl
@[simp] theorem advance_redraw : (advance s).redraw = s.redraw := rfl
@[simp] theorem advance_keypad : (advance s).keypad = s.keypad := rfl
@[simp] theorem advance_mem : (advance s).mem = s.mem := rfl
@[simp] theorem advance_fault : (advance s).fault = s.fault := rfl
@[simp] theorem advance_schedule : (advance s).schedule = s.schedule := rfl
@[simp] theorem advance_draws : (advance s).draws = s.draws := rfl
@[simp] theorem advance_params : (advance s).params = s.params := rfl

@[simp] theorem setI_v (w : Word) : (setI w s).v = s.v := rfl
@[simp] theorem setI_i (w : Word) : (setI w s).i = w := rfl
@[simp] theorem setI_pc (w : Word) : (setI w s).pc = s.pc := rfl
@[simp] theorem setI_stack (w : Word) : (setI w s).stack = s.stack := rfl
@[simp] theorem setI_sp (w : Word) : (setI w s).sp = s.sp := rfl
@[simp] theorem setI_dt (w : Word) : (setI w s).dt = s.dt := rfl
@[simp] theorem setI_st (w : Word) : (setI w s).st = s.st := rfl
@[simp] theorem setI_fb (w : Word) : (setI w s).fb = s.fb := rfl
@[simp] theorem setI_redraw (w : Word) : (setI w s).redraw = s.redraw := rfl
@[simp] theorem setI_keypad (w : Word) : (setI w s).keypad = s.keypad := rfl
@[simp] theorem setI_mem (w : Word) : (setI w s).mem = s.mem := rfl
@[simp] theorem setI_fault (w : Word) : (setI w s).fault = s.fault := rfl
@[simp] theorem setI_schedule (w : Word) : (setI w s).schedule = s.schedule := rfl
@[simp] theorem setI_draws (w : Word) : (setI w s).draws = s.draws := rfl
@[simp] theorem setI_params (w : Word) : (setI w s).params = s.params := rfl

@[simp] theorem setMem_v (m : Memory) : (setMem m s).v = s.v := rfl
@[simp] theorem setMem_i (m : Memory) : (setMem m s).i = s.i := rfl
@[simp] theorem setMem_pc (m : Memory) : (setMem m s).pc = s.pc := rfl
@[simp] theorem setMem_stack (m : Memory) : (setMem m s).stack = s.stack := rfl
@[simp] theorem setMem_sp (m : Memory) : (setMem m s).sp = s.sp := rfl
@[simp] theorem setMem_dt (m : Memory) : (setMem m s).dt = s.dt := rfl
@[simp] theorem setMem_st (m : Memory) : (setMem m s).st = s.st := rfl
@[simp] theorem setMem_fb (m : Memory) : (setMem m s).fb = s.fb := rfl
@[simp] theorem setMem_redraw (m : Memory) : (setMem m s).redraw = s.redraw := rfl
@[simp] theorem setMem_keypad (m : Memory) : (setMem m s).keypad = s.keypad := rfl
@[simp] theorem setMem_mem (m : Memory) : (setMem m s).mem = m := rfl
@[simp] theorem setMem_fault (m : Memory) : (setMem m s).fault = s.fault := rfl
@[simp] theorem setMem_schedule (m : Memory) : (setMem m s).schedule = s.schedule := rfl
@[simp] theorem setMem_draws (m : Memory) : (setMem m s).draws = s.draws := rfl
@[simp] theorem setMem_params (m : Memory) : (setMem m s).params = s.params := rfl

@[simp] theorem setDT_v (w : Byte) : (setDT w s).v = s.v := rfl
@[simp] theorem setDT_i (w : Byte) : (setDT w s).i = s.i := rfl
@[simp] theorem setDT_pc (w : Byte) : (setDT w s).pc = s.pc := rfl
@[simp] theorem setDT_stack (w : Byte) : (setDT w s).stack = s.stack := rfl
@[simp] theorem setDT_sp (w : Byte) : (setDT w s).sp = s.sp := rfl
@[simp] theorem setDT_dt (w : Byte) : (setDT w s).dt = w := rfl
@[simp] theorem setDT_st (w : Byte) : (setDT w s).st = s.st := rfl
@[simp] theorem setDT_fb (w : Byte) : (setDT w s).fb = s.fb := rfl
@[simp] theorem setDT_redraw (w : Byte) : (setDT w s).redraw = s.redraw := rfl
@[simp] theorem setDT_keypad (w : Byte) : (setDT w s).keypad = s.keypad := rfl
@[simp] theorem setDT_mem (w : Byte) : (setDT w s).mem = s.mem := rfl
@[simp] theorem setDT_fault (w : Byte) : (setDT w s).fault = s.fault := rfl
@[simp] theorem setDT_schedule (w : Byte) : (setDT w s).schedule = s.schedule := rfl
@[simp] theorem setDT_draws (w : Byte) : (setDT w s).draws = s.draws := rfl
@[simp] theorem setDT_params (w : Byte) : (setDT w s).params = s.params := rfl

@[simp] theorem setST_v (w : Byte) : (setST w s).v = s.v := rfl
@[simp] theorem setST_i (w : Byte) : (setST w s).i = s.i := rfl
@[simp] theorem setST_pc (w : Byte) : (setST w s).pc = s.pc := rfl
@[simp] theorem setST_stack (w : Byte) : (setST w s).stack = s.stack := rfl
@[simp] theorem setST_sp (w : Byte) : (setST w s).sp = s.sp := rfl
@[simp] theorem setST_dt (w : Byte) : (setST w s).dt = s.dt := rfl
@[simp] theorem setST_st (w : Byte) : (setST w s).st = w := rfl
@[simp] theorem setST_fb (w : Byte) : (setST w s).fb = s.fb := rfl
@[simp] theorem setST_redraw (w : Byte) : (setST w s).redraw = s.redraw := rfl
@[simp] theorem setST_keypad (w : Byte) : (setST w s).keypad = s.keypad := rfl
@[simp] theorem setST_mem (w : Byte) : (setST w s).mem = s.mem := rfl
@[simp] theorem setST_fault (w : Byte) : (setST w s).fault = s.fault := rfl
@[simp] theorem setST_schedule (w : Byte) : (setST w s).schedule = s.schedule := rfl
@[simp] theorem setST_draws (w : Byte) : (setST w s).draws = s.draws := rfl
@[simp] theorem setST_params (w : Byte) : (setST w s).params = s.params := rfl

@[simp] theorem setFramebuffer_v (fb : Framebuffer) : (setFramebuffer fb s).v = s.v := rfl
@[simp] theorem setFramebuffer_i (fb : Framebuffer) : (setFramebuffer fb s).i = s.i := rfl
@[simp] theorem setFramebuffer_pc (fb : Framebuffer) : (setFramebuffer fb s).pc = s.pc := rfl
@[simp] theorem setFramebuffer_stack (fb : Framebuffer) : (setFramebuffer fb s).stack = s.stack := rfl
@[simp] theorem setFramebuffer_sp (fb : Framebuffer) : (setFramebuffer fb s).sp = s.sp := rfl
@[simp] theorem setFramebuffer_dt (fb : Framebuffer) : (setFramebuffer fb s).dt = s.dt := rfl
@[simp] theorem setFramebuffer_st (fb : Framebuffer) : (setFramebuffer fb s).st = s.st := rfl
@[simp] theorem setFramebuffer_fb (fb : Framebuffer) : (setFramebuffer fb s).fb = fb := rfl
@[simp] theorem setFramebuffer_redraw (fb : Framebuffer) : (setFramebuffer fb s).redraw = true := rfl
@[simp] theorem setFramebuffer_keypad (fb : Framebuffer) : (setFramebuffer fb s).keypad = s.keypad := rfl
@[simp] theorem setFramebuffer_mem (fb : Framebuffer) : (setFramebuffer fb s).mem = s.mem := rfl
@[simp] theorem setFramebuffer_fault (fb : Framebuffer) : (setFramebuffer fb s).fault = s.fault := rfl
@[simp] theorem setFramebuffer_schedule (fb : Framebuffer) : (setFramebuffer fb s).schedule = s.schedule := rfl
@[simp] theorem setFramebuffer_draws (fb : Framebuffer) : (setFramebuffer fb s).draws = s.draws := rfl
@[simp] theorem setFramebuffer_params (fb : Framebuffer) : (setFramebuffer fb s).params = s.params := rfl

@[simp] theorem countDraw_v : (countDraw s).v = s.v := rfl
@[simp] theorem countDraw_i : (countDraw s).i = s.i := rfl
@[simp] theorem countDraw_pc : (countDraw s).pc = s.pc := rfl
@[simp] theorem countDraw_stack : (countDraw s).stack = s.stack := rfl
@[simp] theorem countDraw_sp : (countDraw s).sp = s.sp := rfl
@[simp] theorem countDraw_dt : (countDraw s).dt = s.dt := rfl
@[simp] theorem countDraw_st : (countDraw s).st = s.st := rfl
@[simp] theorem countDraw_fb : (countDraw s).fb = s.fb := rfl
@[simp] theorem countDraw_redraw : (countDraw s).redraw = s.redraw := rfl
@[simp] theorem countDraw_keypad : (countDraw s).keypad = s.keypad := rfl
@[simp] theorem countDraw_mem : (countDraw s).mem = s.mem := rfl
@[simp] theorem countDraw_fault : (countDraw s).fault = s.fault := rfl
@[simp] theorem countDraw_schedule : (countDraw s).schedule = s.schedule := rfl
@[simp] theorem countDraw_draws : (countDraw s).draws = s.draws + 1 := rfl
@[simp] theorem countDraw_params : (countDraw s).params = s.params := rfl

@[simp] theorem jumpTo_v (target : Word) : (jumpTo target s).v = s.v := rfl
@[simp] theorem jumpTo_i (target : Word) : (jumpTo target s).i = s.i := rfl
@[simp] theorem jumpTo_pc (target : Word) : (jumpTo target s).pc = target := rfl
@[simp] theorem jumpTo_stack (target : Word) : (jumpTo target s).stack = s.stack := rfl
@[simp] theorem jumpTo_sp (target : Word) : (jumpTo target s).sp = s.sp := rfl
@[simp] theorem jumpTo_dt (target : Word) : (jumpTo target s).dt = s.dt := rfl
@[simp] theorem jumpTo_st (target : Word) : (jumpTo target s).st = s.st := rfl
@[simp] theorem jumpTo_fb (target : Word) : (jumpTo target s).fb = s.fb := rfl
@[simp] theorem jumpTo_redraw (target : Word) : (jumpTo target s).redraw = s.redraw := rfl
@[simp] theorem jumpTo_keypad (target : Word) : (jumpTo target s).keypad = s.keypad := rfl
@[simp] theorem jumpTo_mem (target : Word) : (jumpTo target s).mem = s.mem := rfl
@[simp] theorem jumpTo_fault (target : Word) : (jumpTo target s).fault = s.fault := rfl
@[simp] theorem jumpTo_schedule (target : Word) : (jumpTo target s).schedule = s.schedule := rfl
@[simp] theorem jumpTo_draws (target : Word) : (jumpTo target s).draws = s.draws := rfl
@[simp] theorem jumpTo_params (target : Word) : (jumpTo target s).params = s.params := rfl

@[simp] theorem skipIf_v (cond : Bool) : (skipIf cond s).v = s.v := by cases cond <;> rfl
@[simp] theorem skipIf_i (cond : Bool) : (skipIf cond s).i = s.i := by cases cond <;> rfl
@[simp] theorem skipIf_pc (cond : Bool) : (skipIf cond s).pc = if cond then s.pc + 2 else s.pc := by cases cond <;> rfl
@[simp] theorem skipIf_stack (cond : Bool) : (skipIf cond s).stack = s.stack := by cases cond <;> rfl
@[simp] theorem skipIf_sp (cond : Bool) : (skipIf cond s).sp = s.sp := by cases cond <;> rfl
@[simp] theorem skipIf_dt (cond : Bool) : (skipIf cond s).dt = s.dt := by cases cond <;> rfl
@[simp] theorem skipIf_st (cond : Bool) : (skipIf cond s).st = s.st := by cases cond <;> rfl
@[simp] theorem skipIf_fb (cond : Bool) : (skipIf cond s).fb = s.fb := by cases cond <;> rfl
@[simp] theorem skipIf_redraw (cond : Bool) : (skipIf cond s).redraw = s.redraw := by cases cond <;> rfl
@[simp] theorem skipIf_keypad (cond : Bool) : (skipIf cond s).keypad = s.keypad := by cases cond <;> rfl
@[simp] theorem skipIf_mem (cond : Bool) : (skipIf cond s).mem = s.mem := by cases cond <;> rfl
@[simp] theorem skipIf_fault (cond : Bool) : (skipIf cond s).fault = s.fault := by cases cond <;> rfl
@[simp] theorem skipIf_schedule (cond : Bool) : (skipIf cond s).schedule = s.schedule := by cases cond <;> rfl
@[simp] theorem skipIf_draws (cond : Bool) : (skipIf cond s).draws = s.draws := by cases cond <;> rfl
@[simp] theorem skipIf_params (cond : Bool) : (skipIf cond s).params = s.params := by cases cond <;> rfl

@[simp] theorem setV_v (r : Nibble) (w : Byte) : (setV s r w).v = s.v.set r.toNat w r.isLt := rfl
@[simp] theorem setV_i (r : Nibble) (w : Byte) : (setV s r w).i = s.i := rfl
@[simp] theorem setV_pc (r : Nibble) (w : Byte) : (setV s r w).pc = s.pc := rfl
@[simp] theorem setV_stack (r : Nibble) (w : Byte) : (setV s r w).stack = s.stack := rfl
@[simp] theorem setV_sp (r : Nibble) (w : Byte) : (setV s r w).sp = s.sp := rfl
@[simp] theorem setV_dt (r : Nibble) (w : Byte) : (setV s r w).dt = s.dt := rfl
@[simp] theorem setV_st (r : Nibble) (w : Byte) : (setV s r w).st = s.st := rfl
@[simp] theorem setV_fb (r : Nibble) (w : Byte) : (setV s r w).fb = s.fb := rfl
@[simp] theorem setV_redraw (r : Nibble) (w : Byte) : (setV s r w).redraw = s.redraw := rfl
@[simp] theorem setV_keypad (r : Nibble) (w : Byte) : (setV s r w).keypad = s.keypad := rfl
@[simp] theorem setV_mem (r : Nibble) (w : Byte) : (setV s r w).mem = s.mem := rfl
@[simp] theorem setV_fault (r : Nibble) (w : Byte) : (setV s r w).fault = s.fault := rfl
@[simp] theorem setV_schedule (r : Nibble) (w : Byte) : (setV s r w).schedule = s.schedule := rfl
@[simp] theorem setV_draws (r : Nibble) (w : Byte) : (setV s r w).draws = s.draws := rfl
@[simp] theorem setV_params (r : Nibble) (w : Byte) : (setV s r w).params = s.params := rfl

@[simp] theorem writeFlagThen_v (flag : Bool) (x : Nibble) (w : Byte) : (writeFlagThen s flag x w).v = (s.v.set 15 (flagByte flag)).set x.toNat w x.isLt := rfl
@[simp] theorem writeFlagThen_i (flag : Bool) (x : Nibble) (w : Byte) : (writeFlagThen s flag x w).i = s.i := rfl
@[simp] theorem writeFlagThen_pc (flag : Bool) (x : Nibble) (w : Byte) : (writeFlagThen s flag x w).pc = s.pc := rfl
@[simp] theorem writeFlagThen_stack (flag : Bool) (x : Nibble) (w : Byte) : (writeFlagThen s flag x w).stack = s.stack := rfl
@[simp] theorem writeFlagThen_sp (flag : Bool) (x : Nibble) (w : Byte) : (writeFlagThen s flag x w).sp = s.sp := rfl
@[simp] theorem writeFlagThen_dt (flag : Bool) (x : Nibble) (w : Byte) : (writeFlagThen s flag x w).dt = s.dt := rfl
@[simp] theorem writeFlagThen_st (flag : Bool) (x : Nibble) (w : Byte) : (writeFlagThen s flag x w).st = s.st := rfl
@[simp] theorem writeFlagThen_fb (flag : Bool) (x : Nibble) (w : Byte) : (writeFlagThen s flag x w).fb = s.fb := rfl
@[simp] theorem writeFlagThen_redraw (flag : Bool) (x : Nibble) (w : Byte) : (writeFlagThen s flag x w).redraw = s.redraw := rfl
@[simp] theorem writeFlagThen_keypad (flag : Bool) (x : Nibble) (w : Byte) : (writeFlagThen s flag x w).keypad = s.keypad := rfl
@[simp] theorem writeFlagThen_mem (flag : Bool) (x : Nibble) (w : Byte) : (writeFlagThen s flag x w).mem = s.mem := rfl
@[simp] theorem writeFlagThen_fault (flag : Bool) (x : Nibble) (w : Byte) : (writeFlagThen s flag x w).fault = s.fault := rfl
@[simp] theorem writeFlagThen_schedule (flag : Bool) (x : Nibble) (w : Byte) : (writeFlagThen s flag x w).schedule = s.schedule := rfl
@[simp] theorem writeFlagThen_draws (flag : Bool) (x : Nibble) (w : Byte) : (writeFlagThen s flag x w).draws = s.draws := rfl
@[simp] theorem writeFlagThen_params (flag : Bool) (x : Nibble) (w : Byte) : (writeFlagThen s flag x w).params = s.params := rfl

@[simp] theorem loadRegisters_i (a : Nat) (x : Nibble) : (loadRegisters s a x).i = s.i := rfl
@[simp] theorem loadRegisters_pc (a : Nat) (x : Nibble) : (loadRegisters s a x).pc = s.pc := rfl
@[simp] theorem loadRegisters_stack (a : Nat) (x : Nibble) : (loadRegisters s a x).stack = s.stack := rfl
@[simp] theorem loadRegisters_sp (a : Nat) (x : Nibble) : (loadRegisters s a x).sp = s.sp := rfl
@[simp] theorem loadRegisters_dt (a : Nat) (x : Nibble) : (loadRegisters s a x).dt = s.dt := rfl
@[simp] theorem loadRegisters_st (a : Nat) (x : Nibble) : (loadRegisters s a x).st = s.st := rfl
@[simp] theorem loadRegisters_fb (a : Nat) (x : Nibble) : (loadRegisters s a x).fb = s.fb := rfl
@[simp] theorem loadRegisters_redraw (a : Nat) (x : Nibble) : (loadRegisters s a x).redraw = s.redraw := rfl
@[simp] theorem loadRegisters_keypad (a : Nat) (x : Nibble) : (loadRegisters s a x).keypad = s.keypad := rfl
@[simp] theorem loadRegisters_mem (a : Nat) (x : Nibble) : (loadRegisters s a x).mem = s.mem := rfl
@[simp] theorem loadRegisters_fault (a : Nat) (x : Nibble) : (loadRegisters s a x).fault = s.fault := rfl
@[simp] theorem loadRegisters_schedule (a : Nat) (x : Nibble) : (loadRegisters s a x).schedule = s.schedule := rfl
@[simp] theorem loadRegisters_draws (a : Nat) (x : Nibble) : (loadRegisters s a x).draws = s.draws := rfl
@[simp] theorem loadRegisters_params (a : Nat) (x : Nibble) : (loadRegisters s a x).params = s.params := rfl

@[simp] theorem advanceIndex_v (x : Nibble) : (advanceIndex s x).v = s.v := by unfold advanceIndex; split <;> rfl
@[simp] theorem advanceIndex_i (x : Nibble) : (advanceIndex s x).i = if s.params.indexIncrement then s.i + x.setWidth 16 + 1 else s.i := by unfold advanceIndex; split <;> rfl
@[simp] theorem advanceIndex_pc (x : Nibble) : (advanceIndex s x).pc = s.pc := by unfold advanceIndex; split <;> rfl
@[simp] theorem advanceIndex_stack (x : Nibble) : (advanceIndex s x).stack = s.stack := by unfold advanceIndex; split <;> rfl
@[simp] theorem advanceIndex_sp (x : Nibble) : (advanceIndex s x).sp = s.sp := by unfold advanceIndex; split <;> rfl
@[simp] theorem advanceIndex_dt (x : Nibble) : (advanceIndex s x).dt = s.dt := by unfold advanceIndex; split <;> rfl
@[simp] theorem advanceIndex_st (x : Nibble) : (advanceIndex s x).st = s.st := by unfold advanceIndex; split <;> rfl
@[simp] theorem advanceIndex_fb (x : Nibble) : (advanceIndex s x).fb = s.fb := by unfold advanceIndex; split <;> rfl
@[simp] theorem advanceIndex_redraw (x : Nibble) : (advanceIndex s x).redraw = s.redraw := by unfold advanceIndex; split <;> rfl
@[simp] theorem advanceIndex_keypad (x : Nibble) : (advanceIndex s x).keypad = s.keypad := by unfold advanceIndex; split <;> rfl
@[simp] theorem advanceIndex_mem (x : Nibble) : (advanceIndex s x).mem = s.mem := by unfold advanceIndex; split <;> rfl
@[simp] theorem advanceIndex_fault (x : Nibble) : (advanceIndex s x).fault = s.fault := by unfold advanceIndex; split <;> rfl
@[simp] theorem advanceIndex_schedule (x : Nibble) : (advanceIndex s x).schedule = s.schedule := by unfold advanceIndex; split <;> rfl
@[simp] theorem advanceIndex_draws (x : Nibble) : (advanceIndex s x).draws = s.draws := by unfold advanceIndex; split <;> rfl
@[simp] theorem advanceIndex_params (x : Nibble) : (advanceIndex s x).params = s.params := by unfold advanceIndex; split <;> rfl

@[simp] theorem raiseFault_v (code : FaultCode) (word : Word) (info : Nat) : (raiseFault code word info s).v = s.v := rfl
@[simp] theorem raiseFault_i (code : FaultCode) (word : Word) (info : Nat) : (raiseFault code word info s).i = s.i := rfl
@[simp] theorem raiseFault_pc (code : FaultCode) (word : Word) (info : Nat) : (raiseFault code word info s).pc = s.pc := rfl
@[simp] theorem raiseFault_stack (code : FaultCode) (word : Word) (info : Nat) : (raiseFault code word info s).stack = s.stack := rfl
@[simp] theorem raiseFault_sp (code : FaultCode) (word : Word) (info : Nat) : (raiseFault code word info s).sp = s.sp := rfl
@[simp] theorem raiseFault_dt (code : FaultCode) (word : Word) (info : Nat) : (raiseFault code word info s).dt = s.dt := rfl
@[simp] theorem raiseFault_st (code : FaultCode) (word : Word) (info : Nat) : (raiseFault code word info s).st = s.st := rfl
@[simp] theorem raiseFault_fb (code : FaultCode) (word : Word) (info : Nat) : (raiseFault code word info s).fb = s.fb := rfl
@[simp] theorem raiseFault_redraw (code : FaultCode) (word : Word) (info : Nat) : (raiseFault code word info s).redraw = s.redraw := rfl
@[simp] theorem raiseFault_keypad (code : FaultCode) (word : Word) (info : Nat) : (raiseFault code word info s).keypad = s.keypad := rfl
@[simp] theorem raiseFault_mem (code : FaultCode) (word : Word) (info : Nat) : (raiseFault code word info s).mem = s.mem := rfl
@[simp] theorem raiseFault_fault (code : FaultCode) (word : Word) (info : Nat) : (raiseFault code word info s).fault = some { code := code, pc0 := s.pc, word := word, info := info } := rfl
@[simp] theorem raiseFault_schedule (code : FaultCode) (word : Word) (info : Nat) : (raiseFault code word info s).schedule = s.schedule := rfl
@[simp] theorem raiseFault_draws (code : FaultCode) (word : Word) (info : Nat) : (raiseFault code word info s).draws = s.draws := rfl
@[simp] theorem raiseFault_params (code : FaultCode) (word : Word) (info : Nat) : (raiseFault code word info s).params = s.params := rfl

@[simp] theorem resetWith_v (program : List Byte) : (resetWith program s).v = State.reset.v := rfl
@[simp] theorem resetWith_i (program : List Byte) : (resetWith program s).i = State.reset.i := rfl
@[simp] theorem resetWith_pc (program : List Byte) : (resetWith program s).pc = State.reset.pc := rfl
@[simp] theorem resetWith_stack (program : List Byte) : (resetWith program s).stack = State.reset.stack := rfl
@[simp] theorem resetWith_sp (program : List Byte) : (resetWith program s).sp = State.reset.sp := rfl
@[simp] theorem resetWith_dt (program : List Byte) : (resetWith program s).dt = State.reset.dt := rfl
@[simp] theorem resetWith_st (program : List Byte) : (resetWith program s).st = State.reset.st := rfl
@[simp] theorem resetWith_fb (program : List Byte) : (resetWith program s).fb = State.reset.fb := rfl
@[simp] theorem resetWith_redraw (program : List Byte) : (resetWith program s).redraw = State.reset.redraw := rfl
@[simp] theorem resetWith_keypad (program : List Byte) : (resetWith program s).keypad = State.reset.keypad := rfl
@[simp] theorem resetWith_mem (program : List Byte) : (resetWith program s).mem = loadProgram program := rfl
@[simp] theorem resetWith_fault (program : List Byte) : (resetWith program s).fault = State.reset.fault := rfl
@[simp] theorem resetWith_schedule (program : List Byte) : (resetWith program s).schedule = s.schedule := rfl
@[simp] theorem resetWith_draws (program : List Byte) : (resetWith program s).draws = s.draws := rfl
@[simp] theorem resetWith_params (program : List Byte) : (resetWith program s).params = s.params := rfl

@[simp] theorem tickEvent_v : (tickEvent s).v = s.v := rfl
@[simp] theorem tickEvent_i : (tickEvent s).i = s.i := rfl
@[simp] theorem tickEvent_pc : (tickEvent s).pc = s.pc := rfl
@[simp] theorem tickEvent_stack : (tickEvent s).stack = s.stack := rfl
@[simp] theorem tickEvent_sp : (tickEvent s).sp = s.sp := rfl
@[simp] theorem tickEvent_dt : (tickEvent s).dt = countDown s.dt := rfl
@[simp] theorem tickEvent_st : (tickEvent s).st = countDown s.st := rfl
@[simp] theorem tickEvent_fb : (tickEvent s).fb = s.fb := rfl
@[simp] theorem tickEvent_redraw : (tickEvent s).redraw = s.redraw := rfl
@[simp] theorem tickEvent_keypad : (tickEvent s).keypad = s.keypad := rfl
@[simp] theorem tickEvent_mem : (tickEvent s).mem = s.mem := rfl
@[simp] theorem tickEvent_fault : (tickEvent s).fault = s.fault := rfl
@[simp] theorem tickEvent_schedule : (tickEvent s).schedule = s.schedule := rfl
@[simp] theorem tickEvent_draws : (tickEvent s).draws = s.draws := rfl
@[simp] theorem tickEvent_params : (tickEvent s).params = s.params := rfl

@[simp] theorem keyEvent_v (k : Nibble) (pressed : Bool) : (keyEvent k pressed s).v = s.v := rfl
@[simp] theorem keyEvent_i (k : Nibble) (pressed : Bool) : (keyEvent k pressed s).i = s.i := rfl
@[simp] theorem keyEvent_pc (k : Nibble) (pressed : Bool) : (keyEvent k pressed s).pc = s.pc := rfl
@[simp] theorem keyEvent_stack (k : Nibble) (pressed : Bool) : (keyEvent k pressed s).stack = s.stack := rfl
@[simp] theorem keyEvent_sp (k : Nibble) (pressed : Bool) : (keyEvent k pressed s).sp = s.sp := rfl
@[simp] theorem keyEvent_dt (k : Nibble) (pressed : Bool) : (keyEvent k pressed s).dt = s.dt := rfl
@[simp] theorem keyEvent_st (k : Nibble) (pressed : Bool) : (keyEvent k pressed s).st = s.st := rfl
@[simp] theorem keyEvent_fb (k : Nibble) (pressed : Bool) : (keyEvent k pressed s).fb = s.fb := rfl
@[simp] theorem keyEvent_redraw (k : Nibble) (pressed : Bool) : (keyEvent k pressed s).redraw = s.redraw := rfl
@[simp] theorem keyEvent_keypad (k : Nibble) (pressed : Bool) : (keyEvent k pressed s).keypad = s.keypad.set k.toNat pressed k.isLt := rfl
@[simp] theorem keyEvent_mem (k : Nibble) (pressed : Bool) : (keyEvent k pressed s).mem = s.mem := rfl
@[simp] theorem keyEvent_fault (k : Nibble) (pressed : Bool) : (keyEvent k pressed s).fault = s.fault := rfl
@[simp] theorem keyEvent_schedule (k : Nibble) (pressed : Bool) : (keyEvent k pressed s).schedule = s.schedule := rfl
@[simp] theorem keyEvent_draws (k : Nibble) (pressed : Bool) : (keyEvent k pressed s).draws = s.draws := rfl
@[simp] theorem keyEvent_params (k : Nibble) (pressed : Bool) : (keyEvent k pressed s).params = s.params := rfl

@[simp] theorem redrawAckEvent_v : (redrawAckEvent s).v = s.v := rfl
@[simp] theorem redrawAckEvent_i : (redrawAckEvent s).i = s.i := rfl
@[simp] theorem redrawAckEvent_pc : (redrawAckEvent s).pc = s.pc := rfl
@[simp] theorem redrawAckEvent_stack : (redrawAckEvent s).stack = s.stack := rfl
@[simp] theorem redrawAckEvent_sp : (redrawAckEvent s).sp = s.sp := rfl
@[simp] theorem redrawAckEvent_dt : (redrawAckEvent s).dt = s.dt := rfl
@[simp] theorem redrawAckEvent_st : (redrawAckEvent s).st = s.st := rfl
@[simp] theorem redrawAckEvent_fb : (redrawAckEvent s).fb = s.fb := rfl
@[simp] theorem redrawAckEvent_redraw : (redrawAckEvent s).redraw = false := rfl
@[simp] theorem redrawAckEvent_keypad : (redrawAckEvent s).keypad = s.keypad := rfl
@[simp] theorem redrawAckEvent_mem : (redrawAckEvent s).mem = s.mem := rfl
@[simp] theorem redrawAckEvent_fault : (redrawAckEvent s).fault = s.fault := rfl
@[simp] theorem redrawAckEvent_schedule : (redrawAckEvent s).schedule = s.schedule := rfl
@[simp] theorem redrawAckEvent_draws : (redrawAckEvent s).draws = s.draws := rfl
@[simp] theorem redrawAckEvent_params : (redrawAckEvent s).params = s.params := rfl

/-! ### Register reads after the updates (R13, R132) -/

/-- A register read depends on the registers alone. -/
theorem getV_congr (s t : State) (h : t.v = s.v) (r : Nibble) : getV t r = getV s r := by
  unfold getV; simp only [h]

@[simp] theorem getV_advance (r : Nibble) : getV (advance s) r = getV s r := rfl
@[simp] theorem getV_jumpTo (target : Word) (r : Nibble) : getV (jumpTo target s) r = getV s r := rfl
@[simp] theorem getV_raiseFault (code : FaultCode) (word : Word) (info : Nat) (r : Nibble) :
    getV (raiseFault code word info s) r = getV s r := rfl
@[simp] theorem getV_setI (w : Word) (r : Nibble) : getV (setI w s) r = getV s r := rfl
@[simp] theorem getV_setMem (m : Memory) (r : Nibble) : getV (setMem m s) r = getV s r := rfl
@[simp] theorem getV_setDT (w : Byte) (r : Nibble) : getV (setDT w s) r = getV s r := rfl
@[simp] theorem getV_setST (w : Byte) (r : Nibble) : getV (setST w s) r = getV s r := rfl
@[simp] theorem getV_setFramebuffer (fb : Framebuffer) (r : Nibble) : getV (setFramebuffer fb s) r = getV s r := rfl
@[simp] theorem getV_countDraw (r : Nibble) : getV (countDraw s) r = getV s r := rfl
@[simp] theorem getV_skipIf (cond : Bool) (r : Nibble) : getV (skipIf cond s) r = getV s r := by cases cond <;> rfl
@[simp] theorem getV_advanceIndex (x r : Nibble) : getV (advanceIndex s x) r = getV s r :=
  getV_congr _ _ (advanceIndex_v s x) r

/-- What a register write leaves in every register (R13). -/
theorem getV_setV (r q : Nibble) (w : Byte) : getV (setV s r w) q = if r = q then w else getV s q := by
  simp only [getV, setV_v, Vector.getElem_set, BitVec.toNat_eq]

@[simp] theorem getV_setV_self (r : Nibble) (w : Byte) : getV (setV s r w) r = w := by simp [getV_setV]

theorem getV_setV_of_ne {r q : Nibble} (w : Byte) (h : q ≠ r) : getV (setV s r w) q = getV s q := by
  simp [getV_setV, Ne.symm h]

/-- The two writes of a flag-setting instruction: the destination wins, then the flag (R132). -/
theorem getV_writeFlagThen (flag : Bool) (x q : Nibble) (w : Byte) :
    getV (writeFlagThen s flag x w) q = if x = q then w else if flagReg = q then flagByte flag else getV s q := by
  simp only [writeFlagThen, getV_setV]

/-- What the three register-writing updates leave of the other elements (R132, R145). -/
theorem setV_frame (r : Nibble) (w : Byte) : { setV s r w with v := s.v } = s := rfl

theorem writeFlagThen_frame (flag : Bool) (x : Nibble) (w : Byte) : { writeFlagThen s flag x w with v := s.v } = s := rfl

theorem loadRegisters_frame (a : Nat) (x : Nibble) : { loadRegisters s a x with v := s.v } = s := by
  cases s; rfl

/-- What the conditional updates leave of the other elements (R108, R144). -/
theorem skipIf_frame (cond : Bool) : { skipIf cond s with pc := s.pc } = s := by cases cond <;> rfl

theorem advanceIndex_frame (x : Nibble) : { advanceIndex s x with i := s.i } = s := by
  unfold advanceIndex; split <;> rfl

/-- What a block load leaves in every register (R145). -/
theorem getV_loadRegisters (a : Nat) (x q : Nibble) :
    getV (loadRegisters s a x) q = if q.toNat ≤ x.toNat then Memory.read s.mem (a + q.toNat) else getV s q := by
  simp [getV, loadRegisters]

end Sys2Proof.Machine
end

