-- ==== Sys2Proof/Laws/Memory.lean ====
section
/-! SUPPORT. Memory: a read after a write, the canonical form, blocks, and the address checks (R50 to R59). -/

namespace Sys2Proof.Machine

/-! ### One byte -/

theorem Memory.read_cons (m : Memory) (a : Nat) (w : Byte) (b : Nat)
    (h : b = a → Memory.read m a = initialByte a) :
    Memory.read (Memory.cons a w m) b = if b = a then w else Memory.read m b := by
  unfold Memory.cons
  split
  · rename_i hw
    split
    · rename_i hb; rw [hb, h hb, hw]
    · rfl
  · rfl

/-- Below every listed address memory reads as unlisted. -/
theorem Memory.read_of_lt {m : Memory} {a : Nat} (h : ∀ c ∈ m, a < c.1) : Memory.read m a = initialByte a := by
  induction m with
  | nil => rfl
  | cons c m ih =>
    have hc := h c (by simp)
    have : a ≠ c.1 := by omega
    simp only [Memory.read, if_neg this]
    exact ih fun d hd => h d (by simp [hd])

theorem Memory.wf_cons {c : Host.Cell} {m : Memory} :
    Memory.wf (c :: m) = true ↔
      c.1 < memSize ∧ c.2 ≠ initialByte c.1 ∧ (∀ d ∈ m, c.1 < d.1) ∧ Memory.wf m = true := by
  obtain ⟨a, w⟩ := c
  simp [Memory.wf, and_assoc]

/-- A read after a write (R58, R61): the byte written at its address, the old byte elsewhere.  Here for memories in
canonical form. -/
theorem Memory.read_write {m : Memory} (hm : Memory.wf m = true) (a : Nat) (w : Byte) (b : Nat) :
    Memory.read (Memory.write m a w) b = if b = a then w else Memory.read m b := by
  induction m with
  | nil => exact Memory.read_cons [] a w b fun _ => rfl
  | cons c m ih =>
    obtain ⟨e, u⟩ := c
    obtain ⟨he, hu, hlt, hm'⟩ := Memory.wf_cons.1 hm
    simp only at he hu hlt
    simp only [Memory.write]
    split
    · rename_i hae
      refine Memory.read_cons _ a w b fun _ => Memory.read_of_lt fun d hd => ?_
      rcases List.mem_cons.1 hd with rfl | hd
      · exact hae
      · exact lt_trans hae (hlt d hd)
    · split
      · rename_i _ hae
        subst hae
        rw [Memory.read_cons m a w b fun _ => Memory.read_of_lt hlt]
        simp only [Memory.read]
        split <;> simp_all
      · rename_i h1 h2
        simp only [Memory.read, ih hm']
        by_cases hb : b = e
        · subst hb
          simp [Ne.symm h2]
        · simp [hb]

/-- Where the cells of a write come from. -/
theorem Memory.mem_write {m : Memory} {a : Nat} {w : Byte} {c : Host.Cell} (h : c ∈ Memory.write m a w) :
    c = (a, w) ∨ c ∈ m := by
  have hcons : ∀ m' : Memory, c ∈ Memory.cons a w m' → c = (a, w) ∨ c ∈ m' := by
    intro m' h'
    unfold Memory.cons at h'
    split at h'
    · exact .inr h'
    · simpa using h'
  induction m with
  | nil => simpa using hcons [] h
  | cons d m ih =>
    obtain ⟨e, u⟩ := d
    simp only [Memory.write] at h
    split at h
    · exact hcons _ h
    · split at h
      · exact (hcons _ h).imp_right (List.mem_cons_of_mem _)
      · rcases List.mem_cons.1 h with rfl | h
        · exact .inr (by simp)
        · exact (ih h).imp_right (List.mem_cons_of_mem _)

theorem Memory.wf_of_cons {m : Memory} {a : Nat} (w : Byte) (ha : a < memSize) (hm : Memory.wf m = true)
    (hlt : ∀ c ∈ m, a < c.1) : Memory.wf (Memory.cons a w m) = true := by
  unfold Memory.cons
  split
  · exact hm
  · rename_i hw
    exact Memory.wf_cons.2 ⟨ha, hw, hlt, hm⟩

/-- A write to a valid address keeps the canonical form. -/
theorem Memory.wf_write {m : Memory} (hm : Memory.wf m = true) {a : Nat} (ha : a < memSize) (w : Byte) :
    Memory.wf (Memory.write m a w) = true := by
  induction m with
  | nil => exact Memory.wf_of_cons w ha rfl (by simp)
  | cons c m ih =>
    obtain ⟨e, u⟩ := c
    obtain ⟨he, hu, hlt, hm'⟩ := Memory.wf_cons.1 hm
    simp only at he hu hlt
    simp only [Memory.write]
    split
    · rename_i hae
      refine Memory.wf_of_cons w ha hm fun d hd => ?_
      rcases List.mem_cons.1 hd with rfl | hd
      · exact hae
      · exact lt_trans hae (hlt d hd)
    · split
      · rename_i _ hae
        subst hae
        exact Memory.wf_of_cons w ha hm' hlt
      · rename_i h1 h2
        refine Memory.wf_cons.2 ⟨he, hu, fun d hd => ?_, ih hm'⟩
        rcases Memory.mem_write hd with rfl | hd
        · simp only; omega
        · exact hlt d hd

/-! ### Blocks -/

theorem Memory.wf_writeBlock {m : Memory} (hm : Memory.wf m = true) {a : Nat} {ws : List Byte}
    (h : a + ws.length ≤ memSize) : Memory.wf (Memory.writeBlock m a ws) = true := by
  induction ws generalizing m a with
  | nil => exact hm
  | cons w ws ih =>
    simp only [List.length_cons] at h
    exact ih (Memory.wf_write hm (by omega) w) (by omega)

/-- What a block write leaves at every address (R56, R58). -/
theorem Memory.read_writeBlock {m : Memory} (hm : Memory.wf m = true) {a : Nat} {ws : List Byte}
    (h : a + ws.length ≤ memSize) (b : Nat) :
    Memory.read (Memory.writeBlock m a ws) b =
      if a ≤ b then ws.getD (b - a) (Memory.read m b) else Memory.read m b := by
  induction ws generalizing m a with
  | nil => simp [Memory.writeBlock]
  | cons w ws ih =>
    simp only [List.length_cons] at h
    simp only [Memory.writeBlock]
    rw [ih (Memory.wf_write hm (by omega) w) (by omega), Memory.read_write hm]
    by_cases hab : a ≤ b
    · by_cases hb : b = a
      · subst hb
        simp
      · obtain ⟨k, hk⟩ : ∃ k, b - a = k + 1 := ⟨b - a - 1, by omega⟩
        have h1 : a + 1 ≤ b := by omega
        have h2 : b - (a + 1) = k := by omega
        simp [hab, hb, h1, h2, hk]
    · have h1 : ¬ a + 1 ≤ b := by omega
      have h2 : b ≠ a := by omega
      simp [hab, h1, h2]

/-- Outside a block a block write changes nothing. -/
theorem Memory.read_writeBlock_of_outside {m : Memory} (hm : Memory.wf m = true) {a : Nat} {ws : List Byte}
    (h : a + ws.length ≤ memSize) {b : Nat} (hb : b < a ∨ a + ws.length ≤ b) :
    Memory.read (Memory.writeBlock m a ws) b = Memory.read m b := by
  rw [Memory.read_writeBlock hm h]
  split
  · rw [List.getD_eq_default _ _ (by omega)]
  · rfl

theorem Memory.length_readBlock (m : Memory) (a n : Nat) : (Memory.readBlock m a n).length = n := by
  simp [Memory.readBlock]

theorem Memory.getElem_readBlock (m : Memory) (a n k : Nat) (h : k < (Memory.readBlock m a n).length) :
    (Memory.readBlock m a n)[k] = Memory.read m (a + k) := by
  simp [Memory.readBlock]

/-! ### The address checks -/

theorem checkRead_eq_none {a : Nat} : checkRead a = none ↔ a ≤ 0xFFF := by
  unfold checkRead; split <;> simp <;> omega

theorem checkWrite_eq_none {a : Nat} : checkWrite a = none ↔ 0x50 ≤ a ∧ a ≤ 0xFFF := by
  unfold checkWrite glyphBytes; split
  · simp; omega
  · split <;> simp <;> omega

/-- No address of a block raises exactly when none of them does. -/
theorem firstRaise_eq_none {check : Nat → Option (FaultCode × Nat)} {a n : Nat} :
    firstRaise check a n = none ↔ ∀ k, k < n → check (a + k) = none := by
  simp only [firstRaise, List.findSome?_eq_none_iff, List.mem_range'_1]
  constructor
  · intro h k hk
    exact h (a + k) ⟨by omega, by omega⟩
  · intro h b hb
    have := h (b - a) (by omega)
    rwa [show a + (b - a) = b by omega] at this

/-- The first address of a block that raises, with every lower one passing (R59). -/
theorem firstRaise_eq_some {check : Nat → Option (FaultCode × Nat)} {a n k : Nat} {r : FaultCode × Nat} (hk : k < n)
    (hr : check (a + k) = some r) (hlow : ∀ j, j < k → check (a + j) = none) : firstRaise check a n = some r := by
  induction n generalizing a k with
  | zero => omega
  | succ n ih =>
    unfold firstRaise
    rw [List.range'_succ, List.findSome?_cons]
    cases k with
    | zero => simp [show check a = some r from hr]
    | succ k =>
      have h0 : check a = none := hlow 0 (by omega)
      rw [h0]
      have := ih (a := a + 1) (k := k) (by omega) (by rw [← hr]; congr 1; omega)
        fun j hj => by rw [← hlow (j + 1) (by omega)]; congr 1; omega
      simpa [firstRaise] using this

/-- A data read block is in range exactly when it is empty or ends at or below 0xFFF (R57). -/
theorem readBlock_passes {a n : Nat} : firstRaise checkRead a n = none ↔ n = 0 ∨ a + n ≤ 0x1000 := by
  rw [firstRaise_eq_none]
  constructor
  · intro h
    by_cases hn : n = 0
    · exact .inl hn
    · have := checkRead_eq_none.1 (h (n - 1) (by omega))
      omega
  · rintro (rfl | h) k hk
    · omega
    · exact checkRead_eq_none.2 (by omega)

/-- A read block that runs above 0xFFF raises at its lowest address there (R57, R59). -/
theorem readBlock_raises {a n : Nat} (h0 : n ≠ 0) (h : 0x1000 < a + n) :
    firstRaise checkRead a n = some (.readRange, max a 0x1000) := by
  refine firstRaise_eq_some (k := max a 0x1000 - a) (by omega) ?_ fun j hj => checkRead_eq_none.2 (by omega)
  unfold checkRead
  rw [show a + (max a 0x1000 - a) = max a 0x1000 by omega, if_pos (by omega)]

/-- A write block passes exactly when it is empty or lies in 0x050 to 0xFFF (R58). -/
theorem writeBlock_passes {a n : Nat} :
    firstRaise checkWrite a n = none ↔ n = 0 ∨ (0x50 ≤ a ∧ a + n ≤ 0x1000) := by
  rw [firstRaise_eq_none]
  constructor
  · intro h
    by_cases hn : n = 0
    · exact .inl hn
    · have h1 := checkWrite_eq_none.1 (h (n - 1) (by omega))
      have h2 := checkWrite_eq_none.1 (h 0 (by omega))
      omega
  · rintro (rfl | h) k hk
    · omega
    · exact checkWrite_eq_none.2 (by omega)

/-- A write block that starts in the glyph table raises there (R58, R59). -/
theorem writeBlock_raises_glyph {a n : Nat} (h0 : n ≠ 0) (h : a < 0x50) :
    firstRaise checkWrite a n = some (.glyphWrite, a) := by
  refine firstRaise_eq_some (k := 0) (by omega) ?_ (by omega)
  unfold checkWrite glyphBytes
  rw [if_neg (by omega), if_pos (by omega)]
  rfl

/-- A write block above the glyph table that runs above 0xFFF raises at its lowest address there (R58, R59). -/
theorem writeBlock_raises_range {a n : Nat} (h0 : n ≠ 0) (hg : 0x50 ≤ a) (h : 0x1000 < a + n) :
    firstRaise checkWrite a n = some (.writeRange, max a 0x1000) := by
  refine firstRaise_eq_some (k := max a 0x1000 - a) (by omega) ?_ fun j hj => checkWrite_eq_none.2 (by omega)
  unfold checkWrite
  rw [show a + (max a 0x1000 - a) = max a 0x1000 by omega, if_pos (by omega)]

/-! ### Fetch, the loader, and reset -/

/-- Fetch answers the big-endian word at `pc` when both bytes are in memory (R91). -/
theorem fetch_eq_some {s : State} (h : s.pc.toNat ≤ lastFetch) :
    fetch s = some (bytesWord (Memory.read s.mem s.pc.toNat) (Memory.read s.mem (s.pc.toNat + 1))) := by
  unfold fetch; rw [if_neg (by omega)]

theorem fetch_eq_none {s : State} : fetch s = none ↔ s.pc.toNat > lastFetch := by
  unfold fetch; split <;> simp_all

/-- The loader leaves memory in canonical form (R60). -/
theorem wf_loadProgram {program : List Byte} (h : program.length ≤ programMax) :
    Memory.wf (loadProgram program) = true :=
  Memory.wf_writeBlock rfl (by unfold programMax at h; unfold programBase memSize; omega)

/-- Reset memory is in canonical form. -/
theorem wf_reset : Memory.wf State.reset.mem = true := rfl

end Sys2Proof.Machine
end

