-- ==== Sys2Proof/Laws/Ops.lean ====
section
/-! SUPPORT. Everything each shared operation can do, said once: the call stack, the operand forms, the flags, the events. -/

namespace Sys2Proof.Machine

/-! ### The call stack (R26, R27, R100, R102) -/

theorem pushPc_of_lt {s : State} (h : s.sp.val < 16) :
    pushPc s = some { s with stack := s.stack.set s.sp.val s.pc h, sp := ⟨s.sp.val + 1, by omega⟩ } := by
  unfold pushPc; rw [dif_pos h]

theorem pushPc_eq_none {s : State} : pushPc s = none ↔ s.sp.val = 16 := by
  unfold pushPc; split
  · simp; omega
  · simp; omega

theorem popPc_of_pos {s : State} (h : 0 < s.sp.val) :
    popPc s = some { s with sp := ⟨s.sp.val - 1, by omega⟩, pc := s.stack[s.sp.val - 1]'(by omega) } := by
  unfold popPc; rw [dif_pos h]

theorem popPc_eq_none {s : State} : popPc s = none ↔ s.sp.val = 0 := by
  unfold popPc; split
  · simp; omega
  · simp; omega

/-- Everything a push can answer. -/
theorem pushPc_cases {s t : State} (h : pushPc s = some t) :
    ∃ h : s.sp.val < 16, t = { s with stack := s.stack.set s.sp.val s.pc h, sp := ⟨s.sp.val + 1, by omega⟩ } := by
  by_cases hs : s.sp.val < 16
  · rw [pushPc_of_lt hs] at h
    exact ⟨hs, (Option.some.inj h).symm⟩
  · rw [pushPc_eq_none.2 (by omega)] at h
    cases h

/-- Everything a pop can answer. -/
theorem popPc_cases {s t : State} (h : popPc s = some t) :
    ∃ h : 0 < s.sp.val,
      t = { s with sp := ⟨s.sp.val - 1, by omega⟩, pc := s.stack[s.sp.val - 1]'(by omega) } := by
  by_cases hs : 0 < s.sp.val
  · rw [popPc_of_pos hs] at h
    exact ⟨hs, (Option.some.inj h).symm⟩
  · rw [popPc_eq_none.2 (by omega)] at h
    cases h

/-! ### Operand forms -/

theorem addrOperand_toNat (nnn : Addr) : (addrOperand nnn).toNat = nnn.toNat := by
  unfold addrOperand; rw [BitVec.toNat_setWidth]; omega

theorem wideV_toNat (s : State) (r : Nibble) : (wideV s r).toNat = (getV s r).toNat := by
  unfold wideV; rw [BitVec.toNat_setWidth]; omega

theorem registerBlock_length (s : State) (x : Nibble) : (registerBlock s x).length = x.toNat + 1 := by
  simp [registerBlock]; omega

/-- The registers a block store stores, in order (R144). -/
theorem registerBlock_getD (s : State) (x r : Nibble) (h : r.toNat ≤ x.toNat) (d : Byte) :
    (registerBlock s x).getD r.toNat d = getV s r := by
  have hr : r.toNat < (registerBlock s x).length := by rw [registerBlock_length]; omega
  rw [List.getD_eq_getElem _ _ hr]
  simp [registerBlock, getV]

/-- The key a register names, when its value is at most 15 (R170). -/
theorem keyOperand_eq_some {s : State} {x : Nibble} (k : Fin 16) (h : (getV s x).toNat = k.val) :
    keyOperand s x = some s.keypad[k] := by
  unfold keyOperand; rw [h]; simp

theorem keyOperand_eq_none {s : State} {x : Nibble} : keyOperand s x = none ↔ 15 < (getV s x).toNat := by
  unfold keyOperand; rw [Vector.getElem?_eq_none_iff]; omega

/-- The lowest pressed key (R172). -/
theorem lowestKey_eq_some {s : State} (k : Fin 16) (hk : s.keypad[k] = true)
    (hlow : ∀ j : Fin 16, j < k → s.keypad[j] = false) : lowestKey s = some k.val := by
  unfold lowestKey
  rw [List.findIdx?_eq_some_iff_getElem]
  refine ⟨by simp, by simpa using hk, fun j hj => ?_⟩
  simpa using hlow ⟨j, by omega⟩ hj

theorem lowestKey_eq_none {s : State} : lowestKey s = none ↔ ∀ k : Fin 16, s.keypad[k] = false := by
  unfold lowestKey
  rw [List.findIdx?_eq_none_iff]
  constructor
  · intro h k
    simpa using h s.keypad[k] (by simp)
  · intro h b hb
    obtain ⟨j, hj, rfl⟩ := List.mem_iff_getElem.1 hb
    simpa using h ⟨j, by simpa using hj⟩

theorem bcdDigits_length (w : Byte) : (bcdDigits w).length = 3 := rfl

/-! ### Flags -/

@[simp] theorem flagByte_true : flagByte true = 1 := rfl
@[simp] theorem flagByte_false : flagByte false = 0 := rfl

theorem flagByte_eq_one {b : Bool} : flagByte b = 1 ↔ b = true := by cases b <;> decide

theorem carryFlag_eq_true {a b : Byte} : carryFlag a b = true ↔ a.toNat + b.toNat > 255 := by simp [carryFlag]

theorem noBorrowFlag_eq_true {a b : Byte} : noBorrowFlag a b = true ↔ a.toNat ≥ b.toNat := by simp [noBorrowFlag]

theorem rightLostBit_eq_true {w : Byte} : rightLostBit w = true ↔ w.toNat % 2 = 1 := by
  unfold rightLostBit BitVec.getLsbD
  simp [Nat.testBit_zero]

theorem leftLostBit_eq_true {w : Byte} : leftLostBit w = true ↔ 128 ≤ w.toNat := by
  have := w.isLt
  unfold leftLostBit BitVec.getLsbD
  rw [Nat.testBit_eq_decide_div_mod_eq]
  simp; omega

/-! ### Events -/

theorem countDown_toNat (t : Byte) : (countDown t).toNat = t.toNat - 1 := by
  unfold countDown; split
  · rename_i h; subst h; rfl
  · rename_i h
    have : t.toNat ≠ 0 := fun h0 => h (BitVec.eq_of_toNat_eq (by simpa using h0))
    have := t.isLt
    rw [BitVec.toNat_sub]
    simp; omega

@[simp] theorem nextEvent_nil {s : State} (h : s.schedule = []) : nextEvent s = (.step, s) := by
  unfold nextEvent; rw [h]

@[simp] theorem nextEvent_cons {s : State} {e : Event} {rest : List Event} (h : s.schedule = e :: rest) :
    nextEvent s = (e, { s with schedule := rest }) := by
  unfold nextEvent; rw [h]

/-- The state the next event acts on differs from the state at most in the schedule. -/
theorem nextEvent_state (s : State) : ∃ rest, (nextEvent s).2 = { s with schedule := rest } := by
  cases h : s.schedule with
  | nil => exact ⟨[], by rw [nextEvent_nil h, ← h]⟩
  | cons e rest => exact ⟨rest, by rw [nextEvent_cons h]⟩

/-- Everything a `STEP` can answer (R90). -/
theorem stepEvent_cases (s : State) :
    (s.fault.isSome = true ∧ stepEvent s = .next s) ∨
    (s.fault = none ∧ lastFetch < s.pc.toNat ∧ fetch s = none ∧
      stepEvent s = .next (raiseFault .fetchRange 0 s.pc.toNat s)) ∨
    (∃ w, s.fault = none ∧ s.pc.toNat ≤ lastFetch ∧ fetch s = some w ∧ stepEvent s = exec (decode w) s) := by
  cases hf : s.fault with
  | some f => exact .inl ⟨rfl, by simp [stepEvent, hf]⟩
  | none =>
    right
    cases hw : fetch s with
    | none => exact .inl ⟨rfl, fetch_eq_none.1 hw, rfl, by simp [stepEvent, hf, hw]⟩
    | some w =>
      refine .inr ⟨w, rfl, ?_, rfl, by simp [stepEvent, hf, hw]⟩
      by_contra h
      rw [fetch_eq_none.2 (by omega)] at hw
      cases hw

end Sys2Proof.Machine
end

