-- ==== Sys2Proof/Laws/Display.lean ====
section
/-! SUPPORT. What drawing a sprite does to every cell and to the collision flag (R151 to R154): no cell is visited twice, so
each ends as its old value XOR the sprite bit over it. -/

namespace Sys2Proof.Machine

theorem Framebuffer.cell_toggle (fb : Framebuffer) (x x' : Fin 64) (y y' : Fin 32) :
    Framebuffer.cell (Framebuffer.toggle fb x y) x' y' =
      (Framebuffer.cell fb x' y' ^^ decide (x' = x ∧ y' = y)) := by
  unfold Framebuffer.cell Framebuffer.toggle
  simp only [Fin.getElem_fin, Vector.getElem_set]
  by_cases hy : y.val = y'.val
  · obtain rfl : y = y' := Fin.ext hy
    by_cases hx : x.val = x'.val
    · obtain rfl : x = x' := Fin.ext hx
      simp
    · have : ¬ x' = x := fun h => hx (by rw [h])
      simp [hx, this]
  · have : ¬ y' = y := fun h => hy (by rw [h])
    simp [hy, this]

theorem xor_eq_true_iff {a b : Bool} : (a ^^ b) = true ↔ (a = true ↔ ¬ b = true) := by
  cases a <;> cases b <;> decide

theorem wrapX_inj {cx c c' : Nat} (hc : c < 8) (hc' : c' < 8) (h : wrapX (cx + c) = wrapX (cx + c')) : c = c' := by
  have := congrArg Fin.val h
  simp only [wrapX] at this
  omega

theorem wrapY_inj {cy r r' : Nat} (hr : r < 32) (hr' : r' < 32) (h : wrapY (cy + r) = wrapY (cy + r')) : r = r' := by
  have := congrArg Fin.val h
  simp only [wrapY] at this
  omega

/-- Whether column `x` lies under a set bit among the first `k` columns of a sprite row drawn at `cx`. -/
def rowCovers (byte : Byte) (cx k : Nat) (x : Fin 64) : Prop :=
  ∃ c, c < k ∧ byte.getLsbD (7 - c) = true ∧ x = wrapX (cx + c)

/-- The columns of one row, one after another. -/
theorem drawColumns_spec (byte : Byte) (cx py : Nat) (d : Drawing) (k : Nat) (hk : k ≤ 8) :
    let e := (List.range k).foldl (drawPixel byte cx py) d
    (∀ x y, Framebuffer.cell e.1 x y = true ↔
      (Framebuffer.cell d.1 x y = true ↔ ¬ (rowCovers byte cx k x ∧ y = wrapY py))) ∧
    (e.2 = true ↔ d.2 = true ∨ ∃ x, rowCovers byte cx k x ∧ Framebuffer.cell d.1 x (wrapY py) = true) := by
  induction k with
  | zero => simp [rowCovers]
  | succ k ih =>
    obtain ⟨ihc, ihh⟩ := ih (by omega)
    simp only [List.range_succ, List.foldl_append, List.foldl_cons, List.foldl_nil]
    generalize (List.range k).foldl (drawPixel byte cx py) d = e at ihc ihh
    have hcov : ∀ x, rowCovers byte cx (k + 1) x ↔
        rowCovers byte cx k x ∨ (byte.getLsbD (7 - k) = true ∧ x = wrapX (cx + k)) := by
      intro x
      constructor
      · rintro ⟨c, hc, hb, hx⟩
        by_cases h : c = k
        · subst h; exact .inr ⟨hb, hx⟩
        · exact .inl ⟨c, by omega, hb, hx⟩
      · rintro (⟨c, hc, hb, hx⟩ | ⟨hb, hx⟩)
        · exact ⟨c, by omega, hb, hx⟩
        · exact ⟨k, by omega, hb, hx⟩
    have hnew : ¬ rowCovers byte cx k (wrapX (cx + k)) := by
      rintro ⟨c, hc, _, hx⟩
      have := wrapX_inj (by omega) (by omega) hx
      omega
    unfold drawPixel
    split
    · rename_i hb
      have hold : Framebuffer.cell e.1 (wrapX (cx + k)) (wrapY py) = true ↔
          Framebuffer.cell d.1 (wrapX (cx + k)) (wrapY py) = true := by
        rw [ihc]; simp [hnew]
      constructor
      · intro x y
        rw [Framebuffer.cell_toggle, xor_eq_true_iff, hcov, decide_eq_true_eq]
        by_cases hxy : x = wrapX (cx + k) ∧ y = wrapY py
        · obtain ⟨rfl, rfl⟩ := hxy
          simp [hb, hold]
        · have h1 := ihc x y
          by_cases hy : y = wrapY py
          · have hx : x ≠ wrapX (cx + k) := fun h => hxy ⟨h, hy⟩
            simp [hx, hy] at h1 ⊢
            exact h1
          · simp [hy] at h1 ⊢
            exact h1
      · rw [Bool.or_eq_true, ihh, hold]
        constructor
        · rintro ((h | ⟨x, hx, hc⟩) | h)
          · exact .inl h
          · exact .inr ⟨x, (hcov x).2 (.inl hx), hc⟩
          · exact .inr ⟨_, (hcov _).2 (.inr ⟨hb, rfl⟩), h⟩
        · rintro (h | ⟨x, hx, hc⟩)
          · exact .inl (.inl h)
          · rcases (hcov x).1 hx with hx | ⟨_, rfl⟩
            · exact .inl (.inr ⟨x, hx, hc⟩)
            · exact .inr hc
    · rename_i hb
      have hcov' : ∀ x, rowCovers byte cx (k + 1) x ↔ rowCovers byte cx k x := by
        intro x; rw [hcov]; simp [hb]
      exact ⟨fun x y => by rw [ihc, hcov'], by simp only [ihh, hcov']⟩

/-- Whether a cell lies under a set bit of a sprite drawn at `(cx, cy)`. -/
def spriteCovers (rows : List Byte) (cx cy : Nat) (x : Fin 64) (y : Fin 32) : Prop :=
  ∃ r byte, rows[r]? = some byte ∧ rowCovers byte cx 8 x ∧ y = wrapY (cy + r)

theorem spriteCovers_cons (byte : Byte) (rows : List Byte) (cx cy : Nat) (x : Fin 64) (y : Fin 32) :
    spriteCovers (byte :: rows) cx cy x y ↔
      (rowCovers byte cx 8 x ∧ y = wrapY cy) ∨ spriteCovers rows cx (cy + 1) x y := by
  constructor
  · rintro ⟨r, b, hr, hx, hy⟩
    cases r with
    | zero => simp at hr; subst hr; exact .inl ⟨hx, hy⟩
    | succ r => exact .inr ⟨r, b, by simpa using hr, hx, by rw [hy]; congr 1; omega⟩
  · rintro (⟨hx, hy⟩ | ⟨r, b, hr, hx, hy⟩)
    · exact ⟨0, byte, by simp, hx, hy⟩
    · exact ⟨r + 1, b, by simpa using hr, hx, by rw [hy]; congr 1; omega⟩

/-- What drawing a sprite of at most 32 rows does: a cell flips exactly when it lies under a set bit, and the collision is
raised exactly when such a cell was 1 (R151, R154). -/
theorem drawRows_spec (rows : List Byte) (cx cy : Nat) (d : Drawing) (h : rows.length ≤ 32) :
    (∀ x y, Framebuffer.cell (drawRows rows cx cy d).1 x y = true ↔
      (Framebuffer.cell d.1 x y = true ↔ ¬ spriteCovers rows cx cy x y)) ∧
    ((drawRows rows cx cy d).2 = true ↔
      d.2 = true ∨ ∃ x y, spriteCovers rows cx cy x y ∧ Framebuffer.cell d.1 x y = true) := by
  induction rows generalizing cy d with
  | nil => simp [drawRows, spriteCovers]
  | cons byte rows ih =>
    simp only [List.length_cons] at h
    obtain ⟨rowc, rowh⟩ := drawColumns_spec byte cx cy d 8 le_rfl
    obtain ⟨ihc, ihh⟩ := ih (cy + 1) (drawRow byte cx cy d) (by omega)
    simp only [drawRows]
    simp only [← drawRow.eq_1] at rowc rowh
    have hdisj : ∀ x y, spriteCovers rows cx (cy + 1) x y → y ≠ wrapY cy := by
      rintro x y ⟨r, b, hr, _, rfl⟩ hy
      have hlen : r < rows.length := (List.getElem?_eq_some_iff.1 hr).1
      have := congrArg Fin.val hy
      simp only [wrapY] at this
      omega
    constructor
    · intro x y
      rw [ihc, rowc, spriteCovers_cons]
      by_cases hs : spriteCovers rows cx (cy + 1) x y
      · have hy := hdisj x y hs
        simp only [hs, hy, and_false, or_true, not_true_eq_false, not_false_eq_true, iff_true, iff_false]
      · simp only [hs, or_false, not_false_eq_true, iff_true]
    · rw [ihh, rowh]
      constructor
      · rintro ((h | ⟨x, hx, hc⟩) | ⟨x, y, hs, hc⟩)
        · exact .inl h
        · exact .inr ⟨x, wrapY cy, (spriteCovers_cons ..).2 (.inl ⟨hx, rfl⟩), hc⟩
        · refine .inr ⟨x, y, (spriteCovers_cons ..).2 (.inr hs), ?_⟩
          rw [rowc] at hc
          exact hc.2 fun h => hdisj x y hs h.2
      · rintro (h | ⟨x, y, hs, hc⟩)
        · exact .inl (.inl h)
        · rcases (spriteCovers_cons ..).1 hs with ⟨hx, rfl⟩ | hs
          · exact .inl (.inr ⟨x, hx, hc⟩)
          · exact .inr ⟨x, y, hs, by rw [rowc]; exact ⟨fun _ h => hdisj x y hs h.2, fun _ => hc⟩⟩

end Sys2Proof.Machine
end

