-- ==== Sys2Proof/Laws/Encoding.lean ====
section
/-! SUPPORT. The fields of a word written out from its fields (R71, R72): one lemma per field and format. -/

namespace Sys2Proof

/-! ### The bits of a word, by format -/

theorem getLsbD_nnn (o : Nibble) (a : Addr) (i : Nat) :
    (o ++ a : Word).getLsbD i = if i < 12 then a.getLsbD i else o.getLsbD (i - 12) :=
  BitVec.getLsbD_append

theorem getLsbD_xkk (o x : Nibble) (k : Byte) (i : Nat) :
    (o ++ x ++ k : Word).getLsbD i =
      if i < 8 then k.getLsbD i else if i - 8 < 4 then x.getLsbD (i - 8) else o.getLsbD (i - 8 - 4) := by
  refine (BitVec.getLsbD_append (x := o ++ x) (y := k)).trans ?_
  rw [BitVec.getLsbD_append]

theorem getLsbD_xyn (o x y n : Nibble) (i : Nat) :
    (o ++ x ++ y ++ n : Word).getLsbD i =
      if i < 4 then n.getLsbD i else if i - 4 < 4 then y.getLsbD (i - 4)
      else if i - 4 - 4 < 4 then x.getLsbD (i - 4 - 4) else o.getLsbD (i - 4 - 4 - 4) := by
  refine (BitVec.getLsbD_append (x := o ++ x ++ y) (y := n)).trans ?_
  rw [BitVec.getLsbD_append, BitVec.getLsbD_append]

/-- A field of a word, bit by bit. -/
theorem extract_eq {start len : Nat} {w : Word} {f : BitVec len}
    (h : ∀ i, i < len → w.getLsbD (start + i) = f.getLsbD i) : w.extractLsb' start len = f := by
  apply BitVec.eq_of_getLsbD_eq
  intro i hi
  rw [BitVec.getLsbD_extractLsb', h i hi]
  simp [hi]

/-! ### Format NNN -/

@[simp] theorem fieldOp_nnn (o : Nibble) (a : Addr) : fieldOp (o ++ a : Word) = o :=
  extract_eq fun i _ => by
    rw [getLsbD_nnn, if_neg (by omega)]; congr 1; omega

@[simp] theorem fieldNNN_nnn (o : Nibble) (a : Addr) : fieldNNN (o ++ a : Word) = a :=
  extract_eq fun i _ => by
    rw [getLsbD_nnn, if_pos (by omega)]; congr 1; omega

/-! ### Format XKK (and XSUB, whose second key is the low byte) -/

@[simp] theorem fieldOp_xkk (o x : Nibble) (k : Byte) : fieldOp (o ++ x ++ k : Word) = o :=
  extract_eq fun i _ => by
    rw [getLsbD_xkk, if_neg (by omega), if_neg (by omega)]; congr 1; omega

@[simp] theorem fieldX_xkk (o x : Nibble) (k : Byte) : fieldX (o ++ x ++ k : Word) = x :=
  extract_eq fun i _ => by
    rw [getLsbD_xkk, if_neg (by omega), if_pos (by omega)]; congr 1; omega

@[simp] theorem fieldKK_xkk (o x : Nibble) (k : Byte) : fieldKK (o ++ x ++ k : Word) = k :=
  extract_eq fun i _ => by
    rw [getLsbD_xkk, if_pos (by omega)]; congr 1; omega

/-! ### Formats XY and XYN -/

@[simp] theorem fieldOp_xyn (o x y n : Nibble) : fieldOp (o ++ x ++ y ++ n : Word) = o :=
  extract_eq fun i _ => by
    rw [getLsbD_xyn, if_neg (by omega), if_neg (by omega), if_neg (by omega)]; congr 1; omega

@[simp] theorem fieldX_xyn (o x y n : Nibble) : fieldX (o ++ x ++ y ++ n : Word) = x :=
  extract_eq fun i _ => by
    rw [getLsbD_xyn, if_neg (by omega), if_neg (by omega), if_pos (by omega)]; congr 1; omega

@[simp] theorem fieldY_xyn (o x y n : Nibble) : fieldY (o ++ x ++ y ++ n : Word) = y :=
  extract_eq fun i _ => by
    rw [getLsbD_xyn, if_neg (by omega), if_pos (by omega)]; congr 1; omega

@[simp] theorem fieldN_xyn (o x y n : Nibble) : fieldN (o ++ x ++ y ++ n : Word) = n :=
  extract_eq fun i _ => by
    rw [getLsbD_xyn, if_pos (by omega)]; congr 1; omega

/-! ### A word is its fields -/

theorem word_eq_nnn (w : Word) : w = (fieldOp w ++ fieldNNN w : Word) := by
  apply BitVec.eq_of_getLsbD_eq
  intro i hi
  rw [getLsbD_nnn]
  simp only [fieldOp, fieldNNN, BitVec.getLsbD_extractLsb']
  split
  · rename_i h; simp [h]
  · rw [show 12 + (i - 12) = i by omega]; simp; omega

theorem word_eq_xkk (w : Word) : w = (fieldOp w ++ fieldX w ++ fieldKK w : Word) := by
  apply BitVec.eq_of_getLsbD_eq
  intro i hi
  rw [getLsbD_xkk]
  simp only [fieldOp, fieldX, fieldKK, BitVec.getLsbD_extractLsb']
  split
  · rename_i h; simp [h]
  · split
    · rename_i h; rw [show 8 + (i - 8) = i by omega]; simp [h]
    · rw [show 12 + (i - 8 - 4) = i by omega]; simp; omega

theorem word_eq_xyn (w : Word) : w = (fieldOp w ++ fieldX w ++ fieldY w ++ fieldN w : Word) := by
  apply BitVec.eq_of_getLsbD_eq
  intro i hi
  rw [getLsbD_xyn]
  simp only [fieldOp, fieldX, fieldY, fieldN, BitVec.getLsbD_extractLsb']
  split
  · rename_i h; simp [h]
  · split
    · rename_i h; rw [show 4 + (i - 4) = i by omega]; simp [h]
    · split
      · rename_i h; rw [show 8 + (i - 4 - 4) = i by omega]; simp [h]
      · rw [show 12 + (i - 4 - 4 - 4) = i by omega]; simp; omega

/-! ### The masks of the opcode map -/

/-- Mask 0xF000 keeps the opcode family. -/
theorem and_F000 (w : Word) : w &&& 0xF000#16 = (fieldOp w ++ 0x0#4 ++ 0x0#4 ++ 0x0#4 : Word) := by
  apply BitVec.eq_of_getLsbD_eq
  intro i hi
  rw [getLsbD_xyn]
  simp only [fieldOp, BitVec.getLsbD_and, BitVec.getLsbD_extractLsb']
  interval_cases i <;> simp

/-- Mask 0xF00F keeps the opcode family and the low nibble. -/
theorem and_F00F (w : Word) : w &&& 0xF00F#16 = (fieldOp w ++ 0x0#4 ++ 0x0#4 ++ fieldN w : Word) := by
  apply BitVec.eq_of_getLsbD_eq
  intro i hi
  rw [getLsbD_xyn]
  simp only [fieldOp, fieldN, BitVec.getLsbD_and, BitVec.getLsbD_extractLsb']
  interval_cases i <;> simp

/-- Mask 0xF0FF keeps the opcode family and the low byte. -/
theorem and_F0FF (w : Word) : w &&& 0xF0FF#16 = (fieldOp w ++ 0x0#4 ++ fieldKK w : Word) := by
  apply BitVec.eq_of_getLsbD_eq
  intro i hi
  rw [getLsbD_xkk]
  simp only [fieldOp, fieldKK, BitVec.getLsbD_and, BitVec.getLsbD_extractLsb']
  interval_cases i <;> simp

/-- Mask 0xFFFF keeps the whole word. -/
theorem and_FFFF (w : Word) : w &&& 0xFFFF#16 = w := by
  have : (0xFFFF#16 : Word) = BitVec.allOnes 16 := by decide
  rw [this, BitVec.and_allOnes]

/-! ### Words in memory -/

/-- Two bytes of a word laid out in memory order combine to the word again (R54). -/
theorem bytesWord_wordBytes (w : Word) : bytesWord (w.extractLsb' 8 8) (w.extractLsb' 0 8) = w := by
  unfold bytesWord
  apply BitVec.eq_of_getLsbD_eq
  intro i hi
  refine (BitVec.getLsbD_append (x := w.extractLsb' 8 8) (y := w.extractLsb' 0 8)).trans ?_
  simp only [BitVec.getLsbD_extractLsb']
  split
  · rename_i h; simp [h]
  · rw [show 8 + (i - 8) = i by omega]; simp; omega

/-- The decoder of a byte sequence on the bytes of one word. -/
theorem decodeBytes_wordBytes (w : Word) : decodeBytes (wordBytes w) = .ok (decode w, []) := by
  simp only [wordBytes, decodeBytes, bytesWord_wordBytes]

/-- What the decoder reads from a table word. -/
theorem decodeTableWord_eq (nbits w : Nat) : decodeTableWord nbits w = some (decode (tableWord nbits w)) := by
  unfold decodeTableWord; rw [decodeBytes_wordBytes]

end Sys2Proof
end

