-- ==== Sys2Proof/Laws/PerInstr.lean ====
section
/-! SUPPORT. The statements made per instruction, one lemma per constructor of `Instr`. -/

/-- The encoding of a well-formed instruction matches its own row of the opcode map (R77): `w AND mask = match`.  A `nop`
term, which has no row, encodes to an unmatched word (R79). -/
def Sys2Proof.Laws.EncodesItsRow.Statement (i : Sys2Proof.Instr) : Prop :=
  i.wf = true →
    (i.row = 0 ∧ Sys2Proof.unmatchedWord (Sys2Proof.encode i) = true) ∨
    ∃ row, Sys2Proof.opcodeMap[i.row - 1]? = some row ∧ Sys2Proof.encode i &&& row.2 = row.1

namespace Sys2Proof

theorem Laws.EncodesItsRow.cls : Laws.EncodesItsRow.Statement .cls :=
  fun _ => .inr ⟨_, rfl, by decide⟩

theorem Laws.EncodesItsRow.ret : Laws.EncodesItsRow.Statement .ret :=
  fun _ => .inr ⟨_, rfl, by decide⟩

theorem Laws.EncodesItsRow.jp (nnn : Addr) : Laws.EncodesItsRow.Statement (.jp nnn) :=
  fun _ => .inr ⟨_, rfl, (and_F000 _).trans (by rw [encode, fieldOp_nnn]; rfl)⟩

theorem Laws.EncodesItsRow.call (nnn : Addr) : Laws.EncodesItsRow.Statement (.call nnn) :=
  fun _ => .inr ⟨_, rfl, (and_F000 _).trans (by rw [encode, fieldOp_nnn]; rfl)⟩

theorem Laws.EncodesItsRow.seImm (x : Nibble) (kk : Byte) : Laws.EncodesItsRow.Statement (.seImm x kk) :=
  fun _ => .inr ⟨_, rfl, (and_F000 _).trans (by rw [encode, fieldOp_xkk]; rfl)⟩

theorem Laws.EncodesItsRow.sneImm (x : Nibble) (kk : Byte) : Laws.EncodesItsRow.Statement (.sneImm x kk) :=
  fun _ => .inr ⟨_, rfl, (and_F000 _).trans (by rw [encode, fieldOp_xkk]; rfl)⟩

theorem Laws.EncodesItsRow.seReg (x y : Nibble) : Laws.EncodesItsRow.Statement (.seReg x y) :=
  fun _ => .inr ⟨_, rfl, (and_F000 _).trans (by rw [encode, fieldOp_xyn]; rfl)⟩

theorem Laws.EncodesItsRow.ldImm (x : Nibble) (kk : Byte) : Laws.EncodesItsRow.Statement (.ldImm x kk) :=
  fun _ => .inr ⟨_, rfl, (and_F000 _).trans (by rw [encode, fieldOp_xkk]; rfl)⟩

theorem Laws.EncodesItsRow.addImm (x : Nibble) (kk : Byte) : Laws.EncodesItsRow.Statement (.addImm x kk) :=
  fun _ => .inr ⟨_, rfl, (and_F000 _).trans (by rw [encode, fieldOp_xkk]; rfl)⟩

theorem Laws.EncodesItsRow.ldReg (x y : Nibble) : Laws.EncodesItsRow.Statement (.ldReg x y) :=
  fun _ => .inr ⟨_, rfl, (and_F00F _).trans (by rw [encode, fieldOp_xyn, fieldN_xyn]; rfl)⟩

theorem Laws.EncodesItsRow.orReg (x y : Nibble) : Laws.EncodesItsRow.Statement (.orReg x y) :=
  fun _ => .inr ⟨_, rfl, (and_F00F _).trans (by rw [encode, fieldOp_xyn, fieldN_xyn]; rfl)⟩

theorem Laws.EncodesItsRow.andReg (x y : Nibble) : Laws.EncodesItsRow.Statement (.andReg x y) :=
  fun _ => .inr ⟨_, rfl, (and_F00F _).trans (by rw [encode, fieldOp_xyn, fieldN_xyn]; rfl)⟩

theorem Laws.EncodesItsRow.xorReg (x y : Nibble) : Laws.EncodesItsRow.Statement (.xorReg x y) :=
  fun _ => .inr ⟨_, rfl, (and_F00F _).trans (by rw [encode, fieldOp_xyn, fieldN_xyn]; rfl)⟩

theorem Laws.EncodesItsRow.addReg (x y : Nibble) : Laws.EncodesItsRow.Statement (.addReg x y) :=
  fun _ => .inr ⟨_, rfl, (and_F00F _).trans (by rw [encode, fieldOp_xyn, fieldN_xyn]; rfl)⟩

theorem Laws.EncodesItsRow.sub (x y : Nibble) : Laws.EncodesItsRow.Statement (.sub x y) :=
  fun _ => .inr ⟨_, rfl, (and_F00F _).trans (by rw [encode, fieldOp_xyn, fieldN_xyn]; rfl)⟩

theorem Laws.EncodesItsRow.shr (x y : Nibble) : Laws.EncodesItsRow.Statement (.shr x y) :=
  fun _ => .inr ⟨_, rfl, (and_F00F _).trans (by rw [encode, fieldOp_xyn, fieldN_xyn]; rfl)⟩

theorem Laws.EncodesItsRow.subn (x y : Nibble) : Laws.EncodesItsRow.Statement (.subn x y) :=
  fun _ => .inr ⟨_, rfl, (and_F00F _).trans (by rw [encode, fieldOp_xyn, fieldN_xyn]; rfl)⟩

theorem Laws.EncodesItsRow.shl (x y : Nibble) : Laws.EncodesItsRow.Statement (.shl x y) :=
  fun _ => .inr ⟨_, rfl, (and_F00F _).trans (by rw [encode, fieldOp_xyn, fieldN_xyn]; rfl)⟩

theorem Laws.EncodesItsRow.sneReg (x y : Nibble) : Laws.EncodesItsRow.Statement (.sneReg x y) :=
  fun _ => .inr ⟨_, rfl, (and_F000 _).trans (by rw [encode, fieldOp_xyn]; rfl)⟩

theorem Laws.EncodesItsRow.ldI (nnn : Addr) : Laws.EncodesItsRow.Statement (.ldI nnn) :=
  fun _ => .inr ⟨_, rfl, (and_F000 _).trans (by rw [encode, fieldOp_nnn]; rfl)⟩

theorem Laws.EncodesItsRow.jpV0 (nnn : Addr) : Laws.EncodesItsRow.Statement (.jpV0 nnn) :=
  fun _ => .inr ⟨_, rfl, (and_F000 _).trans (by rw [encode, fieldOp_nnn]; rfl)⟩

theorem Laws.EncodesItsRow.rnd (x : Nibble) (kk : Byte) : Laws.EncodesItsRow.Statement (.rnd x kk) :=
  fun _ => .inr ⟨_, rfl, (and_F000 _).trans (by rw [encode, fieldOp_xkk]; rfl)⟩

theorem Laws.EncodesItsRow.drw (x y n : Nibble) : Laws.EncodesItsRow.Statement (.drw x y n) :=
  fun _ => .inr ⟨_, rfl, (and_F000 _).trans (by rw [encode, fieldOp_xyn]; rfl)⟩

theorem Laws.EncodesItsRow.skp (x : Nibble) : Laws.EncodesItsRow.Statement (.skp x) :=
  fun _ => .inr ⟨_, rfl, (and_F0FF _).trans (by rw [encode, fieldOp_xkk, fieldKK_xkk]; rfl)⟩

theorem Laws.EncodesItsRow.sknp (x : Nibble) : Laws.EncodesItsRow.Statement (.sknp x) :=
  fun _ => .inr ⟨_, rfl, (and_F0FF _).trans (by rw [encode, fieldOp_xkk, fieldKK_xkk]; rfl)⟩

theorem Laws.EncodesItsRow.ldVxDT (x : Nibble) : Laws.EncodesItsRow.Statement (.ldVxDT x) :=
  fun _ => .inr ⟨_, rfl, (and_F0FF _).trans (by rw [encode, fieldOp_xkk, fieldKK_xkk]; rfl)⟩

theorem Laws.EncodesItsRow.ldVxK (x : Nibble) : Laws.EncodesItsRow.Statement (.ldVxK x) :=
  fun _ => .inr ⟨_, rfl, (and_F0FF _).trans (by rw [encode, fieldOp_xkk, fieldKK_xkk]; rfl)⟩

theorem Laws.EncodesItsRow.ldDT (x : Nibble) : Laws.EncodesItsRow.Statement (.ldDT x) :=
  fun _ => .inr ⟨_, rfl, (and_F0FF _).trans (by rw [encode, fieldOp_xkk, fieldKK_xkk]; rfl)⟩

theorem Laws.EncodesItsRow.ldST (x : Nibble) : Laws.EncodesItsRow.Statement (.ldST x) :=
  fun _ => .inr ⟨_, rfl, (and_F0FF _).trans (by rw [encode, fieldOp_xkk, fieldKK_xkk]; rfl)⟩

theorem Laws.EncodesItsRow.addI (x : Nibble) : Laws.EncodesItsRow.Statement (.addI x) :=
  fun _ => .inr ⟨_, rfl, (and_F0FF _).trans (by rw [encode, fieldOp_xkk, fieldKK_xkk]; rfl)⟩

theorem Laws.EncodesItsRow.ldF (x : Nibble) : Laws.EncodesItsRow.Statement (.ldF x) :=
  fun _ => .inr ⟨_, rfl, (and_F0FF _).trans (by rw [encode, fieldOp_xkk, fieldKK_xkk]; rfl)⟩

theorem Laws.EncodesItsRow.ldB (x : Nibble) : Laws.EncodesItsRow.Statement (.ldB x) :=
  fun _ => .inr ⟨_, rfl, (and_F0FF _).trans (by rw [encode, fieldOp_xkk, fieldKK_xkk]; rfl)⟩

theorem Laws.EncodesItsRow.stRegs (x : Nibble) : Laws.EncodesItsRow.Statement (.stRegs x) :=
  fun _ => .inr ⟨_, rfl, (and_F0FF _).trans (by rw [encode, fieldOp_xkk, fieldKK_xkk]; rfl)⟩

theorem Laws.EncodesItsRow.ldRegs (x : Nibble) : Laws.EncodesItsRow.Statement (.ldRegs x) :=
  fun _ => .inr ⟨_, rfl, (and_F0FF _).trans (by rw [encode, fieldOp_xkk, fieldKK_xkk]; rfl)⟩

theorem Laws.EncodesItsRow.nop (w : Word) : Laws.EncodesItsRow.Statement (.nop w) :=
  fun h => .inl ⟨rfl, h⟩

end Sys2Proof
end

