-- ==== Sys2Proof/Tests/Slice0.lean ====
section
/-! SUPPORT. The model's own tests: well-formedness, decoding of words written out from R77, one step each on small states
with the results of spec/95_test_vectors.md (its vector is named at each test), and a witness for every obligation that
has a hypothesis. -/

namespace Sys2Proof.Tests

open Sys2Proof Sys2Proof.Machine

/-! ### Well-formedness -/

/-- R79: a `nop` term that holds a word of some row of R77 is ill formed. -/
theorem test_wf_refuses_matched_words :
    ([0x00E0, 0x00EE, 0x1234, 0x2345, 0x3012, 0x4012, 0x5120, 0x5127, 0x6012, 0x7012, 0x8120, 0x8121, 0x8122, 0x8123,
      0x8124, 0x8125, 0x8126, 0x8127, 0x812E].all fun w => !(Instr.nop w).wf) = true ∧
    ([0x9120, 0x912F, 0xA123, 0xB123, 0xC012, 0xD123, 0xE09E, 0xE0A1, 0xF007, 0xF00A, 0xF015, 0xF018, 0xF01E, 0xF029,
      0xF033, 0xF055, 0xF065].all fun w => !(Instr.nop w).wf) = true := by decide

/-- R79: a `nop` term that holds an unmatched word is well formed, and so are the other terms. -/
theorem test_wf_accepts :
    ([0x0000, 0x0123, 0x01E0, 0x8128, 0x812D, 0x812F, 0xE100, 0xE09F, 0xF1FF, 0xF000].all fun w => (Instr.nop w).wf) = true ∧
    (Instr.drw 15 15 15).wf = true ∧ Instr.cls.wf = true := by decide

/-! ### Decoding: each word written out in bytes, high byte first, from its row of R77 -/

theorem test_decode_family_0 :
    decodeBytes [0x00, 0xE0] = .ok (.cls, []) ∧ decodeBytes [0x00, 0xEE] = .ok (.ret, []) ∧
    decodeBytes [0x01, 0xE0] = .ok (.nop 0x01E0, []) ∧ decodeBytes [0x00] = .error .truncated := by decide

theorem test_decode_families_1_to_7 :
    decodeBytes [0x1A, 0xBC] = .ok (.jp 0xABC, []) ∧ decodeBytes [0x23, 0x00] = .ok (.call 0x300, []) ∧
    decodeBytes [0x31, 0x2A] = .ok (.seImm 1 0x2A, []) ∧ decodeBytes [0x4E, 0x2A] = .ok (.sneImm 0xE 0x2A, []) ∧
    decodeBytes [0x52, 0x31] = .ok (.seReg 2 3, []) ∧ decodeBytes [0x6A, 0x7F] = .ok (.ldImm 0xA 0x7F, []) ∧
    decodeBytes [0x71, 0xFF] = .ok (.addImm 1 0xFF, []) := by decide

theorem test_decode_family_8 :
    decodeBytes [0x82, 0x30] = .ok (.ldReg 2 3, []) ∧ decodeBytes [0x82, 0x31] = .ok (.orReg 2 3, []) ∧
    decodeBytes [0x82, 0x32] = .ok (.andReg 2 3, []) ∧ decodeBytes [0x82, 0x33] = .ok (.xorReg 2 3, []) ∧
    decodeBytes [0x82, 0x34] = .ok (.addReg 2 3, []) ∧ decodeBytes [0x82, 0x35] = .ok (.sub 2 3, []) ∧
    decodeBytes [0x82, 0x36] = .ok (.shr 2 3, []) ∧ decodeBytes [0x82, 0x37] = .ok (.subn 2 3, []) ∧
    decodeBytes [0x82, 0x3E] = .ok (.shl 2 3, []) ∧ decodeBytes [0x82, 0x38] = .ok (.nop 0x8238, []) := by decide

theorem test_decode_families_9_to_D :
    decodeBytes [0x92, 0x3F] = .ok (.sneReg 2 3, []) ∧ decodeBytes [0xAF, 0xFF] = .ok (.ldI 0xFFF, []) ∧
    decodeBytes [0xB3, 0x10] = .ok (.jpV0 0x310, []) ∧ decodeBytes [0xC1, 0x0F] = .ok (.rnd 1 0x0F, []) ∧
    decodeBytes [0xD1, 0x25] = .ok (.drw 1 2 5, []) := by decide

theorem test_decode_families_E_and_F :
    decodeBytes [0xE5, 0x9E] = .ok (.skp 5, []) ∧ decodeBytes [0xE5, 0xA1] = .ok (.sknp 5, []) ∧
    decodeBytes [0xF1, 0x07] = .ok (.ldVxDT 1, []) ∧ decodeBytes [0xF2, 0x0A] = .ok (.ldVxK 2, []) ∧
    decodeBytes [0xF3, 0x15] = .ok (.ldDT 3, []) ∧ decodeBytes [0xF4, 0x18] = .ok (.ldST 4, []) := by decide

theorem test_decode_family_F_memory :
    decodeBytes [0xF5, 0x1E] = .ok (.addI 5, []) ∧ decodeBytes [0xF6, 0x29] = .ok (.ldF 6, []) ∧
    decodeBytes [0xF7, 0x33] = .ok (.ldB 7, []) ∧ decodeBytes [0xF8, 0x55] = .ok (.stRegs 8, []) ∧
    decodeBytes [0xF9, 0x65] = .ok (.ldRegs 9, []) ∧ decodeBytes [0xF1, 0xFF] = .ok (.nop 0xF1FF, []) ∧
    decodeBytes [0xE1, 0x00] = .ok (.nop 0xE100, []) := by decide

/-! ### Small states -/

/-- The state after reset with some registers set. -/
def regs (l : List (Nibble × Byte)) : State := l.foldl (fun s c => setV s c.1 c.2) State.reset

/-- A state with `I` set. -/
def atI (i : Word) (s : State) : State := setI i s

/-- A state with bytes stored in memory. -/
def withBytes (a : Nat) (l : List Byte) (s : State) : State := setMem (Memory.writeBlock s.mem a l) s

/-- A state with `pc` set. -/
def atPc (pc : Word) (s : State) : State := jumpTo pc s

/-- A state with the call-stack depth set, every entry 0. -/
def atDepth (d : Fin 17) : State := { State.reset with sp := d }

/-- A state with some keys pressed. -/
def withKeys (l : List Nibble) (s : State) : State := l.foldl (fun s k => keyEvent k true s) s

/-- A core faulted by a return at depth 0. -/
def faulted : State := raiseFault .stackUnderflow 0x00EE 0 State.reset

/-- One step on a word placed at `pc`, and a check of the next state. -/
def stepOn (w : Nat) (s : State) (p : State → Bool) : Bool :=
  match step (s.withFetchWord 16 w) with
  | .next t => p t
  | .fault _ | .refused _ => false

/-- One event, and a check of the next state. -/
def eventOn (e : Event) (s : State) (p : State → Bool) : Bool :=
  match step { s with schedule := [e] } with
  | .next t => p t
  | .fault _ | .refused _ => false

/-- An outcome is a next state, that one. -/
def isNext (o : Host.Outcome State Fault Refusal) (t : State) : Bool :=
  match o with
  | .next u => u == t
  | .fault _ | .refused _ => false

/-- The values of some registers. -/
def hasRegs (l : List (Nibble × Byte)) (t : State) : Bool := l.all fun c => getV t c.1 == c.2

/-- The bytes from an address. -/
def hasBytes (a : Nat) (l : List Byte) (t : State) : Bool := Memory.readBlock t.mem a l.length == l

/-- Cells (column, row) that are 1, and cells that are 0. -/
def hasCells (on off : List (Fin 64 × Fin 32)) (t : State) : Bool :=
  (on.all fun p => cellAt t.fb p) && off.all fun p => !cellAt t.fb p

/-! ### The step cycle -/

/-- T1: 0x1234 fetched high byte first. -/
theorem test_fetch_big_endian : fetch (withBytes 0x200 [0x12, 0x34] State.reset) = some 0x1234 := by decide

/-- T2: an odd `pc`. -/
theorem test_fetch_odd : stepOn 0x6007 (atPc 0x0201 State.reset) (fun t => t.pc == 0x0203 && hasRegs [(0, 7)] t) = true := by
  decide

/-- T12, T13: the two lowest addresses a fetch refuses. -/
theorem test_fetch_range :
    isNext (step (atPc 0x1000 State.reset)) { atPc 0x1000 State.reset with
      fault := some { code := .fetchRange, pc0 := 0x1000, word := 0, info := 0x1000 } } = true ∧
    isNext (step (atPc 0x0FFF State.reset)) { atPc 0x0FFF State.reset with
      fault := some { code := .fetchRange, pc0 := 0x0FFF, word := 0, info := 0x0FFF } } = true := by decide

/-- T14: a faulted core. -/
theorem test_faulted_step : isNext (step faulted) faulted = true := by decide

/-- T3, T11: 0x0000 is no operation, also at 0xFFE. -/
theorem test_nop : isNext (step State.reset) (atPc 0x0202 State.reset) = true ∧
    isNext (step (atPc 0x0FFE State.reset)) (atPc 0x1000 State.reset) = true := by decide

/-- T4 to T7. -/
theorem test_nop_words : ([0x8128, 0xE100, 0xF1FF, 0x0123, 0x01E0].all fun w =>
    stepOn w State.reset fun t => t.pc == 0x0202 && t.v == State.reset.v && t.redraw == false && t.fault == none) = true := by
  decide

/-! ### Control flow -/

/-- X3. -/
theorem test_ret : stepOn 0x00EE { atDepth 1 with pc := 0x0300, stack := (atDepth 1).stack.set 0 0x0206 }
    (fun t => t.pc == 0x0206 && t.sp == 0) = true := by decide

/-- X4. -/
theorem test_ret_underflow : stepOn 0x00EE State.reset
    (fun t => t.fault == some { code := .stackUnderflow, pc0 := 0x0200, word := 0x00EE, info := 0 } && t.pc == 0x0200) = true := by
  decide

/-- T1. -/
theorem test_jp : stepOn 0x1234 State.reset (fun t => t.pc == 0x0234) = true := by decide

/-- X2, X6. -/
theorem test_call : stepOn 0x2300 (atPc 0x0204 State.reset)
      (fun t => t.stack[0] == 0x0206 && t.sp == 1 && t.pc == 0x0300) = true ∧
    stepOn 0x2300 (atDepth 15) (fun t => t.stack[15] == 0x0202 && t.sp == 16 && t.pc == 0x0300) = true := by decide

/-- X5. -/
theorem test_call_overflow : stepOn 0x2300 (atDepth 16)
    (fun t => t.fault == some { code := .stackOverflow, pc0 := 0x0200, word := 0x2300, info := 16 } && t.pc == 0x0200 &&
      t.sp == 16) = true := by decide

/-- X7, X8. -/
theorem test_seImm : stepOn 0x312A (regs [(1, 0x2A)]) (fun t => t.pc == 0x0204) = true ∧
    stepOn 0x312A (regs [(1, 0x2B)]) (fun t => t.pc == 0x0202) = true := by decide

/-- X9, X10. -/
theorem test_sneImm : stepOn 0x412A (regs [(1, 0x2A)]) (fun t => t.pc == 0x0202) = true ∧
    stepOn 0x412A (regs [(1, 0x2B)]) (fun t => t.pc == 0x0204) = true := by decide

/-- T9, X11. -/
theorem test_seReg : stepOn 0x5231 (regs [(2, 7), (3, 7)]) (fun t => t.pc == 0x0204) = true ∧
    stepOn 0x5440 (regs [(4, 9)]) (fun t => t.pc == 0x0204) = true := by decide

/-- T10, X12. -/
theorem test_sneReg : stepOn 0x923F (regs [(2, 7), (3, 8)]) (fun t => t.pc == 0x0204) = true ∧
    stepOn 0x9440 (regs [(4, 9)]) (fun t => t.pc == 0x0202) = true := by decide

/-- X14, X15. -/
theorem test_jpV0 : stepOn 0xBFFF (regs [(0, 0xFF)]) (fun t => t.pc == 0x10FE && t.fault == none) = true ∧
    stepOn 0xB310 (regs [(0, 2), (3, 0x50)]) (fun t => t.pc == 0x0312) = true := by decide

/-! ### Register arithmetic -/

/-- A1. -/
theorem test_ldImm : stepOn 0x6A7F State.reset (fun t => hasRegs [(0xA, 0x7F), (0x7, 0)] t && t.pc == 0x0202) = true := by decide

/-- A2, A3. -/
theorem test_addImm : stepOn 0x7101 (regs [(1, 0xFF)]) (hasRegs [(1, 0x00), (0xF, 0)]) = true ∧
    stepOn 0x71FF (regs [(1, 0x05)]) (hasRegs [(1, 0x04)]) = true := by decide

/-- A4. -/
theorem test_ldReg : stepOn 0x8230 (regs [(3, 0xAB), (0xF, 1)]) (hasRegs [(2, 0xAB), (3, 0xAB), (0xF, 1)]) = true := by decide

/-- A5. -/
theorem test_orReg : stepOn 0x8011 (regs [(0, 0xF0), (1, 0x0F), (0xF, 1)]) (hasRegs [(0, 0xFF), (0xF, 1)]) = true := by decide

/-- A6. -/
theorem test_andReg : stepOn 0x8012 (regs [(0, 0xF0), (1, 0x3C)]) (hasRegs [(0, 0x30), (1, 0x3C)]) = true := by decide

/-- A7, A8. -/
theorem test_xorReg : stepOn 0x8013 (regs [(0, 0xF0), (1, 0x3C)]) (hasRegs [(0, 0xCC)]) = true ∧
    stepOn 0x8553 (regs [(5, 0x9C)]) (hasRegs [(5, 0)]) = true := by decide

/-- S3: 200 + 100, 255 + 0. -/
theorem test_addReg : stepOn 0x8014 (regs [(0, 0xC8), (1, 0x64)]) (hasRegs [(0, 0x2C), (0xF, 1)]) = true ∧
    stepOn 0x8014 (regs [(0, 0xFF), (1, 0x00)]) (hasRegs [(0, 0xFF), (0xF, 0)]) = true := by decide

/-- A11, A13: the destination is `V[F]`; a source is `V[F]`. -/
theorem test_addReg_flag_register : stepOn 0x8F14 (regs [(0xF, 0xF0), (1, 0x20)]) (hasRegs [(0xF, 0x10)]) = true ∧
    stepOn 0x81F4 (regs [(1, 0xFF), (0xF, 1)]) (hasRegs [(1, 0), (0xF, 1)]) = true := by decide

/-- S5: 3 - 5, 7 - 7. -/
theorem test_sub : stepOn 0x8015 (regs [(0, 3), (1, 5)]) (hasRegs [(0, 0xFE), (0xF, 0)]) = true ∧
    stepOn 0x8015 (regs [(0, 7), (1, 7)]) (hasRegs [(0, 0), (0xF, 1)]) = true := by decide

/-- A12, A14. -/
theorem test_sub_flag_register : stepOn 0x8F15 (regs [(0xF, 0xF0), (1, 0x20)]) (hasRegs [(0xF, 0xD0)]) = true ∧
    stepOn 0x81F5 (regs [(1, 0), (0xF, 1)]) (hasRegs [(1, 0xFF), (0xF, 0)]) = true := by decide

/-- S4: 0x05, 0xFE. -/
theorem test_shr : stepOn 0x8006 (regs [(0, 0x05)]) (hasRegs [(0, 0x02), (0xF, 1)]) = true ∧
    stepOn 0x8006 (regs [(0, 0xFE)]) (hasRegs [(0, 0x7F), (0xF, 0)]) = true := by decide

/-- A15, A18. -/
theorem test_shr_forms : stepOn 0x8F06 (regs [(0xF, 0x05)]) (hasRegs [(0xF, 0x02)]) = true ∧
    stepOn 0x8126 { regs [(1, 0x05), (2, 0x80)] with params := { shiftSrc := .y, indexIncrement := true } }
      (hasRegs [(1, 0x40), (2, 0x80), (0xF, 0)]) = true := by decide

/-- S5: 5 - 3 reversed, 3 - 5 reversed. -/
theorem test_subn : stepOn 0x8017 (regs [(0, 5), (1, 3)]) (hasRegs [(0, 0xFE), (0xF, 0)]) = true ∧
    stepOn 0x8017 (regs [(0, 3), (1, 5)]) (hasRegs [(0, 0x02), (0xF, 1)]) = true := by decide

/-- S4: 0x81, 0x02. -/
theorem test_shl : stepOn 0x800E (regs [(0, 0x81)]) (hasRegs [(0, 0x02), (0xF, 1)]) = true ∧
    stepOn 0x800E (regs [(0, 0x02)]) (hasRegs [(0, 0x04), (0xF, 0)]) = true := by decide

/-- A16, A19. -/
theorem test_shl_forms : stepOn 0x8F0E (regs [(0xF, 0x81)]) (hasRegs [(0xF, 0x02)]) = true ∧
    stepOn 0x812E { regs [(1, 0x05), (2, 0x80)] with params := { shiftSrc := .y, indexIncrement := true } }
      (hasRegs [(1, 0x00), (0xF, 1)]) = true := by decide

/-- A21: no bit outside the immediate, whatever the random byte is. -/
theorem test_rnd : stepOn 0xC000 (regs [(0, 0x55)]) (fun t => t.pc == 0x0202 && t.draws == 1) = true ∧
    getV (countDraw (setV State.reset 0 (Config.rnd 0 &&& 0))) 0 = 0 := by
  refine ⟨by decide, ?_⟩
  show Config.rnd 0 &&& 0 = 0
  exact BitVec.and_zero

/-! ### Index register and memory -/

/-- M1. -/
theorem test_ldI : stepOn 0xAFFF State.reset (fun t => t.i == 0x0FFF) = true := by decide

/-- M2, M3. -/
theorem test_addI : stepOn 0xF01E (atI 0x0FFF (regs [(0, 1)])) (fun t => t.i == 0x1000 && hasRegs [(0xF, 0)] t) = true ∧
    stepOn 0xF01E (atI 0xFFFF (regs [(0, 2)])) (fun t => t.i == 0x0001) = true := by decide

/-- M4, M4b. -/
theorem test_ldF : stepOn 0xF329 (regs [(3, 0x0F)]) (fun t => t.i == 0x004B) = true ∧
    stepOn 0xF329 (regs [(3, 0xFF)]) (fun t => t.i == 0x04FB) = true := by decide

/-- S8, M12. -/
theorem test_ldB :
    stepOn 0xF033 (atI 0x0300 (regs [(0, 0x9D)])) (fun t => hasBytes 0x300 [1, 5, 7] t && t.i == 0x0300) = true ∧
    stepOn 0xF033 (atI 0x0050 (regs [(0, 0x7B)])) (hasBytes 0x50 [1, 2, 3]) = true := by decide

/-- M11, M13. -/
theorem test_ldB_faults :
    stepOn 0xF033 (atI 0x004E (regs [(0, 0x7B)])) (fun t =>
      t.fault == some { code := .glyphWrite, pc0 := 0x0200, word := 0xF033, info := 0x004E } &&
      hasBytes 0x4E [0x80, 0x80, 0] t) = true ∧
    stepOn 0xF033 (atI 0x0FFE (regs [(0, 0x07)])) (fun t =>
      t.fault == some { code := .writeRange, pc0 := 0x0200, word := 0xF033, info := 0x1000 } && hasBytes 0xFFE [0, 0] t) = true := by
  decide

/-- M5, M16. -/
theorem test_stRegs :
    stepOn 0xF255 (atI 0x0303 (regs [(0, 1), (1, 5), (2, 7)])) (fun t => hasBytes 0x303 [1, 5, 7, 0] t && t.i == 0x0306) = true ∧
    stepOn 0xF255 { atI 0x0303 (regs [(0, 1), (1, 5), (2, 7)]) with params := { shiftSrc := .x, indexIncrement := false } }
      (fun t => hasBytes 0x303 [1, 5, 7, 0] t && t.i == 0x0303) = true := by decide

/-- M8, M9. -/
theorem test_stRegs_edge :
    stepOn 0xFF55 (atI 0x0FF0 (regs [(0, 9), (15, 15)])) (fun t => hasBytes 0xFFF [15] t && t.i == 0x1000) = true ∧
    stepOn 0xFF55 (atI 0x0FF1 (regs [(0, 9)])) (fun t =>
      t.fault == some { code := .writeRange, pc0 := 0x0200, word := 0xFF55, info := 0x1000 } && t.i == 0x0FF1 &&
      hasBytes 0xFF1 [0] t) = true := by decide

/-- M6, M15. -/
theorem test_ldRegs :
    stepOn 0xF265 (atI 0x0300 (withBytes 0x300 [1, 5, 7, 9] State.reset))
      (fun t => hasRegs [(0, 1), (1, 5), (2, 7), (3, 0)] t && t.i == 0x0303) = true ∧
    stepOn 0xF465 State.reset
      (fun t => hasRegs [(0, 0xF0), (1, 0x90), (2, 0x90), (3, 0x90), (4, 0xF0)] t && t.i == 0x0005) = true := by decide

/-- M10. -/
theorem test_ldRegs_range : stepOn 0xFF65 (atI 0x0FF1 (regs [(0, 9)])) (fun t =>
    t.fault == some { code := .readRange, pc0 := 0x0200, word := 0xFF65, info := 0x1000 } && t.i == 0x0FF1 &&
    hasRegs [(0, 9)] t) = true := by decide

/-! ### Display -/

/-- S2. -/
theorem test_cls : stepOn 0x00E0 { State.reset with fb := Framebuffer.toggle State.reset.fb 3 4 }
    (fun t => hasCells [] [(3, 4), (0, 0), (63, 31)] t && t.redraw && t.pc == 0x0202) = true := by decide

/-- S7: the sprite wraps at both edges. -/
theorem test_drw_wraps : stepOn 0xD122 (atI 0x0300 (withBytes 0x300 [0xFF, 0xFF] (regs [(1, 63), (2, 31)]))) (fun t =>
    hasCells [(63, 31), (0, 31), (6, 31), (63, 0), (0, 0), (6, 0)] [(62, 31), (7, 31), (7, 0), (63, 30), (0, 1)] t &&
    hasRegs [(0xF, 0)] t && t.redraw) = true := by decide

/-- W3, W8: a collision; the rightmost column is bit 0. -/
theorem test_drw_collides :
    stepOn 0xD011 { atI 0x0300 (withBytes 0x300 [0xC0] State.reset) with fb := Framebuffer.toggle State.reset.fb 1 0 }
      (fun t => hasCells [(0, 0)] [(1, 0), (2, 0)] t && hasRegs [(0xF, 1)] t && t.redraw) = true ∧
    stepOn 0xD011 (atI 0x0300 (withBytes 0x300 [0x01] (regs [(0, 60)])))
      (hasCells [(3, 0)] [(60, 0), (2, 0), (4, 0), (3, 1)]) = true := by decide

/-! ### Timers and events -/

/-- D5. -/
theorem test_ldVxDT : stepOn 0xF107 { State.reset with dt := 2 } (fun t => hasRegs [(1, 2)] t && t.dt == 2) = true := by decide

/-- D1. -/
theorem test_ldDT : stepOn 0xF015 (regs [(0, 3)]) (fun t => t.dt == 3 && t.st == 0) = true := by decide

/-- D6. -/
theorem test_ldST : stepOn 0xF218 (regs [(2, 9)]) (fun t => soundTimer t == 9 && tone t && t.dt == 0) = true := by decide

/-- D2, D3, D4, D8. -/
theorem test_tick :
    eventOn .tick { State.reset with dt := 3 } (fun t => t.dt == 2 && t.st == 0) = true ∧
    eventOn .tick { State.reset with st := 1 } (fun t => t.dt == 0 && t.st == 0) = true ∧
    eventOn .tick State.reset (fun t => t.dt == 0 && t.st == 0) = true ∧
    eventOn .tick { faulted with dt := 5 } (fun t => t.dt == 4 && t.fault == faulted.fault) = true := by decide

/-- K10, K11 and R191. -/
theorem test_host_events :
    eventOn (.keySet 9) State.reset (fun t => t.keypad[9] && !t.keypad[8]) = true ∧
    eventOn (.keyClear 4) (withKeys [4, 5] State.reset) (fun t => !t.keypad[4] && t.keypad[5]) = true ∧
    eventOn .redrawAck { State.reset with redraw := true } (fun t => !t.redraw) = true := by decide

/-- R37, R185, R211: a reset ends a fault and loads its program; the bytes are those of program P1's first two words. -/
theorem test_reset : eventOn (.reset [0x60, 0x05, 0x61, 0x03]) { faulted with dt := 5, pc := 0x0300 } (fun t =>
    t.fault == none && t.dt == 0 && t.pc == 0x0200 && hasBytes 0x1FF [0, 0x60, 0x05, 0x61, 0x03, 0] t &&
    hasBytes 0 [0xF0, 0x90, 0x90, 0x90, 0xF0, 0x20] t) = true := by decide

/-! ### Keypad -/

/-- K1, K2. -/
theorem test_skp : stepOn 0xE09E (withKeys [5] (regs [(0, 5)])) (fun t => t.pc == 0x0204) = true ∧
    stepOn 0xE09E (regs [(0, 5)]) (fun t => t.pc == 0x0202) = true := by decide

/-- K3, K4. -/
theorem test_sknp : stepOn 0xE0A1 (withKeys [5] (regs [(0, 5)])) (fun t => t.pc == 0x0202) = true ∧
    stepOn 0xE0A1 (regs [(0, 5)]) (fun t => t.pc == 0x0204) = true := by decide

/-- K5, K6. -/
theorem test_key_range :
    stepOn 0xE09E (regs [(0, 0x10)])
      (fun t => t.fault == some { code := .keyRange, pc0 := 0x0200, word := 0xE09E, info := 16 }) = true ∧
    stepOn 0xE0A1 (regs [(0, 0xFF)])
      (fun t => t.fault == some { code := .keyRange, pc0 := 0x0200, word := 0xE0A1, info := 255 }) = true := by decide

/-- K7, K9. -/
theorem test_ldVxK : stepOn 0xF20A (withKeys [9, 3] State.reset) (fun t => hasRegs [(2, 3)] t && t.pc == 0x0202) = true ∧
    stepOn 0xF20A (withKeys [0] (regs [(2, 0x55)])) (fun t => hasRegs [(2, 0)] t && t.pc == 0x0202) = true := by decide

/-- K8. -/
theorem test_ldVxK_waits : stepOn 0xF20A (regs [(2, 0x55)]) (fun t => hasRegs [(2, 0x55)] t && t.pc == 0x0200) = true := by
  decide

/-! ### Witnesses: for every obligation with hypotheses, states and operands that meet them, clause by clause -/

/-- DecodeOfEncodeIsIdentity. -/
theorem test_witness_DecodeOfEncodeIsIdentity : (Instr.drw 1 2 5).wf = true ∧ (Instr.nop 0x8128).wf = true := by decide

/-- WordSelectsItsOpcodeMapRow: the first row, a row, the last row. -/
theorem test_witness_WordSelectsItsOpcodeMapRow :
    opcodeMap[0]? = some (0x00E0, 0xFFFF) ∧ opcodeMap[22]? = some (0xD000, 0xF000) ∧ opcodeMap[33]? = some (0xF065, 0xF0FF) := by
  decide

/-- StepRunsTheDecodedInstruction: `pc` at its bound with nothing scheduled, and with a `STEP` scheduled. -/
theorem test_witness_StepRunsTheDecodedInstruction :
    (Running (withBytes 0xFFE [0x60, 0x05] (atPc 0x0FFE State.reset)) ∧
      (withBytes 0xFFE [0x60, 0x05] (atPc 0x0FFE State.reset)).pc.toNat ≤ 0xFFE ∧
      decodeBytes [Memory.read (withBytes 0xFFE [0x60, 0x05] (atPc 0x0FFE State.reset)).mem 0xFFE,
        Memory.read (withBytes 0xFFE [0x60, 0x05] (atPc 0x0FFE State.reset)).mem 0xFFF] = .ok (.ldImm 0 5, []) ∧
      (withBytes 0xFFE [0x60, 0x05] (atPc 0x0FFE State.reset)).schedule = []) ∧
    (Running (State.reset.withFetchWord 16 0xD015) ∧ (State.reset.withFetchWord 16 0xD015).pc.toNat ≤ 0xFFE ∧
      decodeBytes [Memory.read (State.reset.withFetchWord 16 0xD015).mem 0x200,
        Memory.read (State.reset.withFetchWord 16 0xD015).mem 0x201] = .ok (.drw 0 1 5, []) ∧
      (State.reset.withFetchWord 16 0xD015).schedule = .step :: []) := by
  unfold Running; decide

/-- FetchIsBigEndianAndChecked: both sides of the bound. -/
theorem test_witness_FetchIsBigEndianAndChecked :
    (0xFFE < (atPc 0x0FFF State.reset).pc.toNat ∧ Running (atPc 0x0FFF State.reset)) ∧
    (atPc 0x0FFE State.reset).pc.toNat ≤ 0xFFE := by
  unfold Running; decide

/-- FaultedCoreStaysFaulted: each kind of event on a faulted core. -/
theorem test_witness_FaultedCoreStaysFaulted :
    faulted.fault ≠ none ∧ perform .step faulted = .next faulted ∧ (∃ t, perform .tick faulted = .next t) ∧
    (∃ t, perform (.keySet 9) faulted = .next t) ∧ (∃ t, perform (.keyClear 9) faulted = .next t) ∧
    (∃ t, perform .redrawAck faulted = .next t) ∧ ∃ t, perform (.reset []) faulted = .next t :=
  ⟨by decide, rfl, ⟨_, rfl⟩, ⟨_, rfl⟩, ⟨_, rfl⟩, ⟨_, rfl⟩, ⟨_, rfl⟩⟩

/-- StepsFollowTheSchedule: nothing scheduled, and a tick. -/
theorem test_witness_StepsFollowTheSchedule :
    State.reset.schedule = [] ∧ { State.reset with schedule := [.tick] }.schedule = .tick :: [] := by decide

/-- ReturnPopsTheCallStack: depths 1, 16 and 0. -/
theorem test_witness_ReturnPopsTheCallStack :
    (atDepth 1).sp.val = (0 : Fin 16).val + 1 ∧ (atDepth 16).sp.val = (15 : Fin 16).val + 1 ∧ (atDepth 0).sp.val = 0 := by decide

/-- CallPushesTheNextAddress: depths 0, 15 and 16. -/
theorem test_witness_CallPushesTheNextAddress :
    (atDepth 0).sp.val = (0 : Fin 16).val ∧ (atDepth 15).sp.val = (15 : Fin 16).val ∧ (atDepth 16).sp.val = 16 := by decide

/-- ReturnMatchesItsCall: depth 15, and a later state with another `I` and another `pc`. -/
theorem test_witness_ReturnMatchesItsCall :
    (atDepth 15).sp.val < 16 ∧ ∃ t, exec (.call 0x300) (atDepth 15) = .next t ∧
      (atPc 0x0400 (atI 5 t)).stack = t.stack ∧ (atPc 0x0400 (atI 5 t)).sp = t.sp :=
  ⟨by decide, _, rfl, rfl, rfl⟩

/-- NestedCallsUnwind: one call, and sixteen. -/
theorem test_witness_NestedCallsUnwind :
    (([0x300] : List Addr) ≠ [] ∧ State.reset.sp.val + ([0x300] : List Addr).length ≤ 16) ∧
    (List.replicate 16 (0x300 : Addr) ≠ [] ∧ State.reset.sp.val + (List.replicate 16 (0x300 : Addr)).length = 16) := by decide

/-- ShiftsCaptureTheLostBit: both settings of `SHIFT_SRC`. -/
theorem test_witness_ShiftsCaptureTheLostBit :
    ((regs [(1, 5), (2, 0x80)]).params.shiftSrc = .x ∧ (5 : Byte) = getV (regs [(1, 5), (2, 0x80)]) 1) ∧
    ({ regs [(1, 5), (2, 0x80)] with params := { shiftSrc := .y, indexIncrement := true } }.params.shiftSrc = .y ∧
      (0x80 : Byte) = getV (regs [(1, 5), (2, 0x80)]) 2) := by decide

/-- RegistersChangeOnlyWhereNamed: a register beside the destination, and one above the block of load-registers. -/
theorem test_witness_RegistersChangeOnlyWhereNamed :
    ((∃ t, exec (.addReg 1 2) State.reset = .next t) ∧ (Instr.addReg 1 2).mayWrite 2 = false) ∧
    ((∃ t, exec (.ldRegs 2) State.reset = .next t) ∧ (Instr.ldRegs 2).mayWrite 3 = false) :=
  ⟨⟨⟨_, rfl⟩, by decide⟩, ⟨_, rfl⟩, by decide⟩

/-- StoreBcdStoresThreeDigits: the last glyph address, the first address that reaches past 0xFFF, both ends in between. -/
theorem test_witness_StoreBcdStoresThreeDigits :
    indexBase (atI 0x004F State.reset) ≤ 0x04F ∧ 0xFFF < indexBase (atI 0x0FFE State.reset) + 2 ∧
    (Memory.wf (atI 0x0050 State.reset).mem = true ∧ 0x050 ≤ indexBase (atI 0x0050 State.reset) ∧
      indexBase (atI 0x0050 State.reset) + 2 ≤ 0xFFF) ∧
    (Memory.wf (atI 0x0FFD State.reset).mem = true ∧ 0x050 ≤ indexBase (atI 0x0FFD State.reset) ∧
      indexBase (atI 0x0FFD State.reset) + 2 ≤ 0xFFF) := by decide

/-- StoreRegistersStoresTheBlock: as above for blocks of 16 registers, and both settings of `INDEX_INCREMENT`. -/
theorem test_witness_StoreRegistersStoresTheBlock :
    indexBase (atI 0x004F State.reset) ≤ 0x04F ∧ 0xFFF < indexBase (atI 0x0FF1 State.reset) + (15 : Nibble).toNat ∧
    (Memory.wf (atI 0x0050 State.reset).mem = true ∧ 0x050 ≤ indexBase (atI 0x0050 State.reset) ∧
      indexBase (atI 0x0050 State.reset) + (15 : Nibble).toNat ≤ 0xFFF ∧
      (atI 0x0050 State.reset).params.indexIncrement = true) ∧
    (Memory.wf (atI 0x0FF0 State.reset).mem = true ∧ 0x050 ≤ indexBase (atI 0x0FF0 State.reset) ∧
      indexBase (atI 0x0FF0 State.reset) + (15 : Nibble).toNat ≤ 0xFFF) ∧
    { State.reset with params := { shiftSrc := .x, indexIncrement := false } }.params.indexIncrement = false := by decide

/-- LoadRegistersLoadsTheBlock: the last block of 16 in range, the first out of range, the glyph table. -/
theorem test_witness_LoadRegistersLoadsTheBlock :
    0xFFF < indexBase (atI 0x0FF1 State.reset) + (15 : Nibble).toNat ∧
    (indexBase (atI 0x0FF0 State.reset) + (15 : Nibble).toNat ≤ 0xFFF ∧
      (atI 0x0FF0 State.reset).params.indexIncrement = true) ∧
    indexBase (atI 0x0000 State.reset) + (0 : Nibble).toNat ≤ 0xFFF ∧
    { State.reset with params := { shiftSrc := .x, indexIncrement := false } }.params.indexIncrement = false := by decide

/-- MemoryChangesOnlyInTheStoredBlock: the addresses beside the block of each storing form, and a form that stores nothing. -/
theorem test_witness_MemoryChangesOnlyInTheStoredBlock :
    Memory.wf (atI 0x0300 State.reset).mem = true ∧
    ((∃ t, exec (.ldB 1) (atI 0x0300 State.reset) = .next t) ∧ 0x2FF < indexBase (atI 0x0300 State.reset) ∧
      indexBase (atI 0x0300 State.reset) + 3 ≤ 0x303) ∧
    ((∃ t, exec (.stRegs 2) (atI 0x0300 State.reset) = .next t) ∧ 0x2FF < indexBase (atI 0x0300 State.reset) ∧
      indexBase (atI 0x0300 State.reset) + (2 : Nibble).toNat + 1 ≤ 0x303) ∧
    ((∃ t, exec .cls (atI 0x0300 State.reset) = .next t) ∧ (∀ x, Instr.cls ≠ .ldB x) ∧ ∀ x, Instr.cls ≠ .stRegs x) :=
  ⟨by decide, ⟨⟨_, rfl⟩, by decide⟩, ⟨⟨_, rfl⟩, by decide⟩, ⟨_, rfl⟩, (fun _ h => by cases h), fun _ h => by cases h⟩

/-- StoredBytesAreFetched: the last word of memory, and the lowest block that may be stored. -/
theorem test_witness_StoredBytesAreFetched :
    (Memory.wf (atI 0x0FF0 State.reset).mem = true ∧ 0x050 ≤ indexBase (atI 0x0FF0 State.reset) ∧
      indexBase (atI 0x0FF0 State.reset) + (15 : Nibble).toNat ≤ 0xFFF ∧ (14 : Nibble).toNat + 1 = (15 : Nibble).toNat ∧
      (15 : Nibble).toNat ≤ (15 : Nibble).toNat ∧
      ∃ t, exec (.stRegs 15) (atI 0x0FF0 State.reset) = .next t ∧ (atPc 0x0FFE t).mem = t.mem ∧
        (atPc 0x0FFE t).pc.toNat = indexBase (atI 0x0FF0 State.reset) + (14 : Nibble).toNat) ∧
    (0x050 ≤ indexBase (atI 0x0050 State.reset) ∧ indexBase (atI 0x0050 State.reset) + (1 : Nibble).toNat ≤ 0xFFF ∧
      (0 : Nibble).toNat + 1 = (1 : Nibble).toNat ∧
      (atPc 0x0050 State.reset).pc.toNat = indexBase (atI 0x0050 State.reset) + (0 : Nibble).toNat) :=
  ⟨⟨by decide, by decide, by decide, by decide, by decide, _, rfl, rfl, rfl⟩, by decide⟩

/-- DrawSpriteTogglesItsCells: the last sprite in range, the first out of range, a sprite of no rows anywhere. -/
theorem test_witness_DrawSpriteTogglesItsCells :
    ((5 : Nibble) ≠ 0 ∧ 0x1000 < indexBase (atI 0x0FFC State.reset) + (5 : Nibble).toNat) ∧
    indexBase (atI 0x0FFB State.reset) + (5 : Nibble).toNat ≤ 0x1000 ∧ (0 : Nibble) = 0 := by decide

/-- DrawingTwiceRestores: right after the first draw, and in a later state elsewhere in the program. -/
theorem test_witness_DrawingTwiceRestores :
    (∃ t, exec (.drw 1 2 5) State.reset = .next t ∧ t = t ∧ (1 : Nibble) ≠ flagReg ∧ (2 : Nibble) ≠ flagReg ∧
      indexBase State.reset + (5 : Nibble).toNat ≤ 0x1000) ∧
    (∃ t, exec (.drw 15 2 1) State.reset = .next t ∧ (atPc 0x0300 (setV t 15 0)).fb = t.fb ∧
      (atPc 0x0300 (setV t 15 0)).i = State.reset.i ∧
      getV (atPc 0x0300 (setV t 15 0)) 15 = getV State.reset 15 ∧
      getV (atPc 0x0300 (setV t 15 0)) 2 = getV State.reset 2 ∧
      ∀ r, r < (1 : Nibble).toNat → Memory.read (atPc 0x0300 (setV t 15 0)).mem (indexBase State.reset + r) =
        Memory.read State.reset.mem (indexBase State.reset + r)) :=
  ⟨⟨_, rfl, rfl, by decide, by decide, by decide⟩, _, rfl, rfl, rfl, rfl, rfl, fun _ _ => rfl⟩

/-- TickCountsDownBothTimers: each timer at 0 and above it. -/
theorem test_witness_TickCountsDownBothTimers :
    0 < { State.reset with dt := 1 }.dt.toNat ∧ State.reset.dt.toNat = 0 ∧
    0 < { State.reset with st := 255 }.st.toNat ∧ State.reset.st.toNat = 0 := by decide

/-- KeypadSkipsTestTheNamedKey: key 15, and the value 16. -/
theorem test_witness_KeypadSkipsTestTheNamedKey :
    (getV (regs [(1, 15)]) 1).toNat = (15 : Fin 16).val ∧ 15 < (getV (regs [(1, 16)]) 1).toNat := by decide

/-- WaitForKeyTakesTheLowestKey: key 0, key 15 alone, and no key. -/
theorem test_witness_WaitForKeyTakesTheLowestKey :
    ((withKeys [0, 9] State.reset).keypad[(0 : Fin 16)] = true ∧
      ∀ j : Fin 16, j < 0 → (withKeys [0, 9] State.reset).keypad[j] = false) ∧
    ((withKeys [15] State.reset).keypad[(15 : Fin 16)] = true ∧
      ∀ j : Fin 16, j < 15 → (withKeys [15] State.reset).keypad[j] = false) ∧
    (∀ k : Fin 16, State.reset.keypad[k] = false) := by decide

/-- WaitingCoreStays. -/
theorem test_witness_WaitingCoreStays :
    WaitsForKey (withBytes 0x200 [0xF2, 0x0A] State.reset) ∧ (withBytes 0x200 [0xF2, 0x0A] State.reset).schedule = [] :=
  ⟨⟨rfl, ⟨0xF20A, 2, rfl, rfl⟩, by decide⟩, rfl⟩

/-- InstructionsFaultExactlyAsTabulated: each cause, and no cause beside each bound. -/
theorem test_witness_InstructionsFaultExactlyAsTabulated :
    Instr.ret.raises (atDepth 0) = some (.stackUnderflow, 0) ∧ Instr.ret.raises (atDepth 1) = none ∧
    (Instr.call 0x300).raises (atDepth 16) = some (.stackOverflow, 16) ∧ (Instr.call 0x300).raises (atDepth 15) = none ∧
    (Instr.skp 1).raises (regs [(1, 16)]) = some (.keyRange, 16) ∧ (Instr.sknp 1).raises (regs [(1, 15)]) = none ∧
    (Instr.drw 1 2 5).raises (atI 0x0FFC State.reset) = some (.readRange, 0x1000) ∧
    (Instr.drw 1 2 5).raises (atI 0x0FFB State.reset) = none ∧ (Instr.drw 1 2 0).raises (atI 0xFFFF State.reset) = none ∧
    (Instr.ldRegs 15).raises (atI 0x0FF1 State.reset) = some (.readRange, 0x1000) ∧
    (Instr.ldB 1).raises (atI 0x004F State.reset) = some (.glyphWrite, 0x4F) ∧
    (Instr.ldB 1).raises (atI 0x0FFE State.reset) = some (.writeRange, 0x1000) ∧
    (Instr.stRegs 15).raises (atI 0x0FF1 State.reset) = some (.writeRange, 0x1000) ∧
    (Instr.stRegs 15).raises (atI 0x0FF0 State.reset) = none ∧ Instr.cls.raises State.reset = none := by decide

/-- FaultsArePrecise: a fault of an instruction, a fault of the fetch, and a core already faulted. -/
theorem test_witness_FaultsArePrecise :
    (Running (withBytes 0x200 [0x00, 0xEE] State.reset) ∧
      ∃ t f, perform .step (withBytes 0x200 [0x00, 0xEE] State.reset) = .next t ∧ t.fault = some f) ∧
    (Running (atPc 0x0FFF State.reset) ∧ ∃ t f, perform .step (atPc 0x0FFF State.reset) = .next t ∧ t.fault = some f) ∧
    (perform .step faulted = .next faulted ∧ faulted.fault ≠ none) :=
  ⟨⟨rfl, _, _, rfl, rfl⟩, ⟨rfl, _, _, rfl, rfl⟩, rfl, by decide⟩

/-- OtherInstructionsAdvanceByTwo. -/
theorem test_witness_OtherInstructionsAdvanceByTwo :
    (∃ t, exec (.ldB 1) (atI 0x0300 State.reset) = .next t) ∧ (Instr.ldB 1).raises (atI 0x0300 State.reset) = none ∧
    Instr.ldB 1 ≠ .ret ∧ (∀ a, Instr.ldB 1 ≠ .jp a) ∧ (∀ a, Instr.ldB 1 ≠ .call a) ∧ (∀ a, Instr.ldB 1 ≠ .jpV0 a) ∧
    (∀ x k, Instr.ldB 1 ≠ .seImm x k) ∧ (∀ x k, Instr.ldB 1 ≠ .sneImm x k) ∧ (∀ x y, Instr.ldB 1 ≠ .seReg x y) ∧
    (∀ x y, Instr.ldB 1 ≠ .sneReg x y) ∧ (∀ x, Instr.ldB 1 ≠ .skp x) ∧ (∀ x, Instr.ldB 1 ≠ .sknp x) ∧
    ∀ x, Instr.ldB 1 ≠ .ldVxK x := by
  refine ⟨⟨_, rfl⟩, by decide, ?_⟩
  refine ⟨?_, ?_, ?_, ?_, ?_, ?_, ?_, ?_, ?_, ?_, ?_⟩ <;> intros <;> intro h <;> cases h

/-- InstructionsKeepToTheWriteMatrix: an instruction outside every row of the matrix, with the redraw flag set. -/
theorem test_witness_InstructionsKeepToTheWriteMatrix :
    (∃ t, exec (.ldImm 1 2) { State.reset with redraw := true } = .next t) ∧ { State.reset with redraw := true }.redraw = true ∧
    (∀ x, Instr.ldImm 1 2 ≠ .ldDT x) ∧ (∀ x, Instr.ldImm 1 2 ≠ .ldST x) ∧ Instr.ldImm 1 2 ≠ .cls ∧
    (∀ x y n, Instr.ldImm 1 2 ≠ .drw x y n) ∧ Instr.ldImm 1 2 ≠ .ret ∧ (∀ a, Instr.ldImm 1 2 ≠ .call a) ∧
    (∀ a, Instr.ldImm 1 2 ≠ .ldI a) ∧ (∀ x, Instr.ldImm 1 2 ≠ .addI x) ∧ (∀ x, Instr.ldImm 1 2 ≠ .ldF x) ∧
    (∀ x, Instr.ldImm 1 2 ≠ .stRegs x) ∧ (∀ x, Instr.ldImm 1 2 ≠ .ldRegs x) ∧ ∀ x k, Instr.ldImm 1 2 ≠ .rnd x k := by
  refine ⟨⟨_, rfl⟩, rfl, ?_⟩
  refine ⟨?_, ?_, ?_, ?_, ?_, ?_, ?_, ?_, ?_, ?_, ?_, ?_⟩ <;> intros <;> intro h <;> cases h

/-- InputsMatterOnlyToTheirInstructions. -/
theorem test_witness_InputsMatterOnlyToTheirInstructions :
    (∃ t, exec .cls State.reset = .next t) ∧ (∀ x, Instr.cls ≠ .skp x) ∧ (∀ x, Instr.cls ≠ .sknp x) ∧
    (∀ x, Instr.cls ≠ .ldVxK x) ∧ ∀ x k, Instr.cls ≠ .rnd x k := by
  refine ⟨⟨_, rfl⟩, ?_, ?_, ?_, ?_⟩ <;> intros <;> intro h <;> cases h

/-- RestIsAFixedPoint (X1): a jump to itself at 0x200, and at the highest address that can hold one. -/
theorem test_witness_RestIsAFixedPoint :
    (AtRest (withBytes 0x200 [0x12, 0x00] State.reset) ∧ (withBytes 0x200 [0x12, 0x00] State.reset).schedule = []) ∧
    AtRest (withBytes 0xFFE [0x1F, 0xFE] (atPc 0x0FFE State.reset)) := by
  unfold AtRest Running; decide

/-- ResetSetsEveryElement: a program, an address between the glyphs and it, and the longest image. -/
theorem test_witness_ResetSetsEveryElement :
    ([0x60, 0x05] : List Byte).length ≤ 3584 ∧ ([0x60, 0x05] : List Byte)[1]? = some 0x05 ∧
    (List.replicate 3584 (0xFF : Byte)).length ≤ 3584 := by
  refine ⟨by decide, rfl, ?_⟩
  rw [List.length_replicate]

/-- OversizedImageIsRefused: the shortest image that is too long, and the longest that is not. -/
theorem test_witness_OversizedImageIsRefused :
    3584 < (List.replicate 3585 (0xFF : Byte)).length ∧ ¬3584 < (List.replicate 3584 (0xFF : Byte)).length := by
  rw [List.length_replicate, List.length_replicate]; decide

/-- StepKeepsMemoryInv: a state that meets the invariant and steps. -/
theorem test_witness_StepKeepsMemoryInv :
    MemoryInv (withBytes 0x200 [0xF0, 0x33] (atI 0x0300 State.reset)) ∧
    ∃ t, step (withBytes 0x200 [0xF0, 0x33] (atI 0x0300 State.reset)) = .next t := by
  refine ⟨⟨by decide, fun a ha => ?_⟩, _, rfl⟩
  interval_cases a <;> decide

/-- StepKeepsControlInv: the highest `pc`, and the highest return address. -/
theorem test_witness_StepKeepsControlInv :
    (ControlInv (atPc 0x10FE State.reset) ∧ ∃ t, step (atPc 0x10FE State.reset) = .next t) ∧
    (ControlInv { atDepth 1 with stack := (atDepth 1).stack.set 0 0x1000 } ∧
      ∃ t, step { atDepth 1 with stack := (atDepth 1).stack.set 0 0x1000 } = .next t) := by
  refine ⟨⟨?_, _, rfl⟩, ?_, _, rfl⟩ <;> unfold ControlInv <;> decide

/-- StepKeepsLatchInv: a running core, and a core faulted by the fetch. -/
theorem test_witness_StepKeepsLatchInv :
    (LatchInv State.reset ∧ ∃ t, step State.reset = .next t) ∧
    (LatchInv (raiseFault .fetchRange 0 0x1000 (atPc 0x1000 State.reset)) ∧
      ∃ t, step (raiseFault .fetchRange 0 0x1000 (atPc 0x1000 State.reset)) = .next t) := by
  refine ⟨⟨fun f h => (nomatch h), _, rfl⟩, fun f h => ?_, _, rfl⟩
  cases h
  exact ⟨rfl, .inl ⟨rfl, rfl, rfl, by decide⟩⟩

end Sys2Proof.Tests
end

section
/-! PROOFS. Control flow (41_control_flow.md): the jump. -/

namespace Sys2Proof.Machine

theorem exec_jp (nnn : Addr) (s : State) :
    exec (.jp nnn) s = .next (jumpTo (addrOperand nnn) (advance s)) := rfl

/-- Shared by both jumps (R101, R107): a control transfer after the advance writes `pc` alone. -/
theorem jumpTo_advance_frame (target : Word) (s : State) :
    { jumpTo target (advance s) with pc := s.pc } = s := rfl

/-- Settles O12: `pc` takes the operand unchanged in value, and the transfer's frame is the whole rest of the state. -/
theorem jumpSetsThePc : Obligations.JumpSetsThePc := by
  intro s nnn
  have hpc : (jumpTo (addrOperand nnn) (advance s)).pc.toNat = nnn.toNat := by
    rw [jumpTo_pc, addrOperand_toNat]
  exact ⟨_, exec_jp nnn s, hpc, (jumpTo_advance_frame (addrOperand nnn) s).symm⟩

end Sys2Proof.Machine
end

section
/-! PROOFS. Register arithmetic (42_register_arithmetic.md): the plain register writes, the addition and the subtractions. -/

namespace Sys2Proof.Machine

/-! ### Dispatch of the nine instructions (R93) -/

theorem exec_ldImm (x : Nibble) (kk : Byte) (s : State) :
    exec (.ldImm x kk) s = .next (setV (advance s) x kk) := rfl

theorem exec_addImm (x : Nibble) (kk : Byte) (s : State) :
    exec (.addImm x kk) s = .next (setV (advance s) x (getV s x + kk)) := rfl

theorem exec_ldReg (x y : Nibble) (s : State) :
    exec (.ldReg x y) s = .next (setV (advance s) x (getV s y)) := rfl

theorem exec_orReg (x y : Nibble) (s : State) :
    exec (.orReg x y) s = .next (setV (advance s) x (getV s x ||| getV s y)) := rfl

theorem exec_andReg (x y : Nibble) (s : State) :
    exec (.andReg x y) s = .next (setV (advance s) x (getV s x &&& getV s y)) := rfl

theorem exec_xorReg (x y : Nibble) (s : State) :
    exec (.xorReg x y) s = .next (setV (advance s) x (getV s x ^^^ getV s y)) := rfl

theorem exec_addReg (x y : Nibble) (s : State) :
    exec (.addReg x y) s =
      .next (writeFlagThen (advance s) (carryFlag (getV s x) (getV s y)) x (getV s x + getV s y)) := rfl

theorem exec_sub (x y : Nibble) (s : State) :
    exec (.sub x y) s =
      .next (writeFlagThen (advance s) (noBorrowFlag (getV s x) (getV s y)) x (getV s x - getV s y)) := rfl

theorem exec_subn (x y : Nibble) (s : State) :
    exec (.subn x y) s =
      .next (writeFlagThen (advance s) (noBorrowFlag (getV s y) (getV s x)) x (getV s y - getV s x)) := rfl

/-! ### The two shapes of effect -/

theorem writesRegister_setV_advance (s : State) (x : Nibble) (w : Byte) :
    WritesRegister s (setV (advance s) x w) x w := by
  have hother : ∀ r, r ≠ x → getV (setV (advance s) x w) r = getV s r := fun r hr => by
    rw [getV_setV_of_ne _ w hr, getV_advance]
  exact ⟨rfl, getV_setV_self _ x w, hother, rfl⟩

/-- Shared by the flag-setting instructions (R132): the model's flag enters by what it means, `flag ↔ P`. -/
theorem writesFlagAndRegister_writeFlagThen_advance (s : State) {flag : Bool} {P : Prop} (hflag : flag = true ↔ P)
    (x : Nibble) (w : Byte) : WritesFlagAndRegister s (writeFlagThen (advance s) flag x w) P x w := by
  have hdest : getV (writeFlagThen (advance s) flag x w) x = w := by rw [getV_writeFlagThen, if_pos rfl]
  have hF : x ≠ flagReg → getV (writeFlagThen (advance s) flag x w) flagReg = flagByte flag := fun hx => by
    rw [getV_writeFlagThen, if_neg hx, if_pos rfl]
  have hother : ∀ r, r ≠ x → r ≠ flagReg → getV (writeFlagThen (advance s) flag x w) r = getV s r :=
    fun r hx hr => by rw [getV_writeFlagThen, if_neg hx.symm, if_neg hr.symm, getV_advance]
  refine ⟨rfl, hdest, fun hx => ⟨fun hP => ?_, fun hP => ?_⟩, hother, rfl⟩
  · rw [hF hx, hflag.2 hP, flagByte_true]
  · rw [hF hx, Bool.eq_false_iff.2 (mt hflag.1 hP), flagByte_false]

/-! ### Byte arithmetic as arithmetic modulo 256 -/

theorem ofNat_add_mod_eq_add (a b : Byte) : BitVec.ofNat 8 ((a.toNat + b.toNat) % 256) = a + b := by
  apply BitVec.eq_of_toNat_eq
  rw [BitVec.toNat_ofNat, BitVec.toNat_add, Nat.mod_mod]

theorem ofInt_sub_emod_eq_sub (a b : Byte) : BitVec.ofInt 8 ((a.toNat - b.toNat : Int) % 256) = a - b := by
  apply BitVec.eq_of_toNat_eq
  rw [BitVec.toNat_ofInt, BitVec.toNat_sub]
  omega

/-! ### The obligations -/

/-- Settles O18: each instruction is one register write after the advance. -/
theorem plainRegisterInstructions : Obligations.PlainRegisterInstructions := by
  intro s x y kk
  rw [← BitVec.add_def]
  exact ⟨⟨_, exec_ldImm x kk s, writesRegister_setV_advance s x _⟩,
    ⟨_, exec_addImm x kk s, writesRegister_setV_advance s x _⟩,
    ⟨_, exec_ldReg x y s, writesRegister_setV_advance s x _⟩,
    ⟨_, exec_orReg x y s, writesRegister_setV_advance s x _⟩,
    ⟨_, exec_andReg x y s, writesRegister_setV_advance s x _⟩,
    ⟨_, exec_xorReg x y s, writesRegister_setV_advance s x _⟩⟩

/-- Settles O19: the flag is the carry of the unbounded sum, the destination write is the byte sum. -/
theorem addRegistersSetsCarry : Obligations.AddRegistersSetsCarry := by
  intro s x y
  rw [ofNat_add_mod_eq_add]
  exact ⟨_, exec_addReg x y s, writesFlagAndRegister_writeFlagThen_advance s carryFlag_eq_true x _⟩

/-- Settles O20: both orders of the operands share the not-borrow flag and the byte difference. -/
theorem subtractionsSetNotBorrow : Obligations.SubtractionsSetNotBorrow := by
  intro s x y
  rw [ofInt_sub_emod_eq_sub, ofInt_sub_emod_eq_sub]
  exact ⟨⟨_, exec_sub x y s, writesFlagAndRegister_writeFlagThen_advance s noBorrowFlag_eq_true x _⟩,
    ⟨_, exec_subn x y s, writesFlagAndRegister_writeFlagThen_advance s noBorrowFlag_eq_true x _⟩⟩

end Sys2Proof.Machine
end

section
/-! PROOFS. Index register (43_memory_index.md): set-index, add-to-index and set-index-to-glyph. -/

namespace Sys2Proof.Machine

theorem exec_ldI (nnn : Addr) (s : State) :
    exec (.ldI nnn) s = .next (setI (addrOperand nnn) (advance s)) := rfl

theorem exec_addI (x : Nibble) (s : State) :
    exec (.addI x) s = .next (setI (s.i + wideV s x) (advance s)) := rfl

theorem exec_ldF (x : Nibble) (s : State) :
    exec (.ldF x) s = .next (setI (wideV s x * 5) (advance s)) := rfl

/-- Shared by the three (R140 to R142): an index write after the advance touches `I` and `pc` alone. -/
theorem setI_advance_frame (w : Word) (s : State) :
    { setI w (advance s) with i := s.i, pc := s.pc } = s := rfl

/-- R141: the sum wraps at 16 bits, not at the 12 of an address (D13). -/
theorem add_wideV_toNat (s : State) (x : Nibble) :
    (s.i + wideV s x).toNat = (s.i.toNat + (getV s x).toNat) % 2 ^ 16 := by
  rw [BitVec.toNat_add, wideV_toNat]

/-- R142: a byte times 5 is at most 1275, so the 16-bit product is the unbounded one. -/
theorem wideV_mul_five_toNat (s : State) (x : Nibble) : (wideV s x * 5).toNat = (getV s x).toNat * 5 := by
  have hbound : (getV s x).toNat * 5 < 2 ^ 16 := by have := (getV s x).isLt; omega
  rw [BitVec.toNat_mul, wideV_toNat]
  exact Nat.mod_eq_of_lt hbound

/-- Settles O24: each instruction is one index write after the advance; only the value written differs. -/
theorem indexInstructionsWriteI : Obligations.IndexInstructionsWriteI := by
  intro s nnn x
  exact ⟨⟨_, exec_ldI nnn s, addrOperand_toNat nnn, rfl, (setI_advance_frame _ s).symm⟩,
    ⟨_, exec_addI x s, add_wideV_toNat s x, rfl, (setI_advance_frame _ s).symm⟩,
    ⟨_, exec_ldF x s, wideV_mul_five_toNat s x, rfl, (setI_advance_frame _ s).symm⟩⟩

end Sys2Proof.Machine
end

section
/-! PROOFS. Display (44_display.md): clear-display. -/

namespace Sys2Proof.Machine

theorem exec_cls (s : State) : exec .cls s = .next (setFramebuffer Framebuffer.blank (advance s)) := rfl

/-- R150: all 2048 cells, 64 in each of the 32 rows, are 0 in the blank framebuffer. -/
@[simp] theorem Framebuffer.cell_blank (x : Fin 64) (y : Fin 32) : Framebuffer.cell Framebuffer.blank x y = false := by
  unfold Framebuffer.cell Framebuffer.blank
  rw [Fin.getElem_fin, Fin.getElem_fin, Vector.getElem_replicate, Vector.getElem_replicate]

/-- A framebuffer write after the advance touches the cells, the redraw flag and `pc` alone. -/
theorem setFramebuffer_advance_frame (fb : Framebuffer) (s : State) :
    { setFramebuffer fb (advance s) with fb := s.fb, redraw := s.redraw, pc := s.pc } = s := rfl

/-- Settles O30: the instruction is one write of the blank framebuffer after the advance. -/
theorem clearDisplayClears : Obligations.ClearDisplayClears := by
  intro s
  have hpc : (setFramebuffer Framebuffer.blank (advance s)).pc = s.pc + 2 := by
    rw [setFramebuffer_pc, advance_pc]
  exact ⟨_, exec_cls s, Framebuffer.cell_blank, setFramebuffer_redraw _ _, hpc,
    (setFramebuffer_advance_frame Framebuffer.blank s).symm⟩

end Sys2Proof.Machine
end

section
/-! PROOFS. Timers (45_timers_io.md): load-delay-timer, set-delay-timer and set-sound-timer. -/

namespace Sys2Proof.Machine

/-! ### Dispatch of the three instructions (R93) -/

theorem exec_ldVxDT (x : Nibble) (s : State) : exec (.ldVxDT x) s = .next (setV (advance s) x s.dt) := rfl

theorem exec_ldDT (x : Nibble) (s : State) : exec (.ldDT x) s = .next (setDT (getV s x) (advance s)) := rfl

theorem exec_ldST (x : Nibble) (s : State) : exec (.ldST x) s = .next (setST (getV s x) (advance s)) := rfl

/-! ### Frames of the timer writes -/

theorem setDT_advance_frame (w : Byte) (s : State) :
    { setDT w (advance s) with dt := s.dt, pc := s.pc } = s := rfl

theorem setST_advance_frame (w : Byte) (s : State) :
    { setST w (advance s) with st := s.st, pc := s.pc } = s := rfl

/-- Settles O35: the load is one register write after the advance, and each set is one timer write after it. -/
theorem timerInstructionsMoveOneByte : Obligations.TimerInstructionsMoveOneByte := by
  intro s x
  have hpcDT : (setDT (getV s x) (advance s)).pc = s.pc + 2 := by rw [setDT_pc, advance_pc]
  have hpcST : (setST (getV s x) (advance s)).pc = s.pc + 2 := by rw [setST_pc, advance_pc]
  exact ⟨⟨_, exec_ldVxDT x s, writesRegister_setV_advance s x s.dt⟩,
    ⟨_, exec_ldDT x s, setDT_dt _ _, hpcDT, (setDT_advance_frame (getV s x) s).symm⟩,
    ⟨_, exec_ldST x s, setST_st _ _, hpcST, (setST_advance_frame (getV s x) s).symm⟩⟩

end Sys2Proof.Machine
end

section
/-! PROOFS. Keypad (46_keypad.md): wait-for-key. -/

namespace Sys2Proof.Machine

/-! ### The two outcomes of the scan (R172) -/

theorem exec_ldVxK_of_lowestKey_eq_some {s : State} {k : Nat} (h : lowestKey s = some k) (x : Nibble) :
    exec (.ldVxK x) s = .next (setV (advance s) x (BitVec.ofNat 8 k)) := by
  change execLdVxK x s = _
  rw [execLdVxK, h]

theorem exec_ldVxK_of_lowestKey_eq_none {s : State} (h : lowestKey s = none) (x : Nibble) :
    exec (.ldVxK x) s = .next (jumpTo ((advance s).pc - 2) (advance s)) := by
  change execLdVxK x s = _
  rw [execLdVxK, h]

/-- R172: the rewind by 2 undoes the advance at every `pc`, since both are taken modulo 2^16. -/
theorem jumpTo_sub_two_advance (s : State) : jumpTo ((advance s).pc - 2) (advance s) = s := by
  have hpc : (advance s).pc - 2 = s.pc := by rw [advance_pc, BitVec.add_sub_cancel]
  rw [hpc]
  exact jumpTo_advance_frame s.pc s

/-- Settles O39: a found key is one register write after the advance; with none, the rewind undoes the advance. -/
theorem waitForKeyTakesTheLowestKey : Obligations.WaitForKeyTakesTheLowestKey := by
  intro s x
  constructor
  · intro k hk hlow
    exact ⟨_, exec_ldVxK_of_lowestKey_eq_some (lowestKey_eq_some k hk hlow) x, writesRegister_setV_advance s x _⟩
  · intro hnone
    rw [exec_ldVxK_of_lowestKey_eq_none (lowestKey_eq_none.2 hnone) x, jumpTo_sub_two_advance]

end Sys2Proof.Machine
end

section
/-! PROOFS. Events (60_exceptions.md): the tick, the key events and the redraw acknowledgement. -/

namespace Sys2Proof.Machine

/-! ### What each event performs (R188, R191, R193) -/

theorem perform_tick (s : State) : perform .tick s = .next (tickEvent s) := rfl

theorem perform_keySet (k : Nibble) (s : State) : perform (.keySet k) s = .next (keyEvent k true s) := rfl

theorem perform_keyClear (k : Nibble) (s : State) : perform (.keyClear k) s = .next (keyEvent k false s) := rfl

theorem perform_redrawAck (s : State) : perform .redrawAck s = .next (redrawAckEvent s) := rfl

/-! ### Frames of the events -/

theorem tickEvent_frame (s : State) : { tickEvent s with dt := s.dt, st := s.st } = s := rfl

theorem keyEvent_frame (k : Nibble) (pressed : Bool) (s : State) :
    { keyEvent k pressed s with keypad := s.keypad } = s := rfl

theorem redrawAckEvent_frame (s : State) : { redrawAckEvent s with redraw := s.redraw } = s := rfl

/-! ### The elements the events write -/

theorem countDown_toNat_succ {t : Byte} (h : 0 < t.toNat) : (countDown t).toNat + 1 = t.toNat := by
  rw [countDown_toNat, Nat.sub_add_cancel h]

theorem countDown_toNat_of_zero {t : Byte} (h : t.toNat = 0) : (countDown t).toNat = 0 := by
  rw [countDown_toNat, h]

/-- What a key event leaves in every keypad entry (R191). -/
theorem getElem_keyEvent_keypad (k : Nibble) (pressed : Bool) (s : State) (j : Fin 16) :
    (keyEvent k pressed s).keypad[j] = if j.val = k.toNat then pressed else s.keypad[j] := by
  simp only [keyEvent_keypad, Fin.getElem_fin, Vector.getElem_set, eq_comm]

/-- Settles O37: the tick is one countdown of each timer, and a countdown subtracts 1 or stays at 0. -/
theorem tickCountsDownBothTimers : Obligations.TickCountsDownBothTimers := by
  intro s
  exact ⟨_, perform_tick s, countDown_toNat_succ, countDown_toNat_of_zero, countDown_toNat_succ,
    countDown_toNat_of_zero, (tickEvent_frame s).symm⟩

/-- Settles O41: both events are one write of the keypad, at the named entry. -/
theorem keyEventsWriteOneEntry : Obligations.KeyEventsWriteOneEntry := by
  intro s k
  exact ⟨_, _, perform_keySet k s, perform_keyClear k s,
    getElem_keyEvent_keypad k true s, (keyEvent_frame k true s).symm,
    getElem_keyEvent_keypad k false s, (keyEvent_frame k false s).symm⟩

/-- Settles O42: the event is one write of the redraw flag. -/
theorem redrawAckClearsTheFlag : Obligations.RedrawAckClearsTheFlag := by
  intro s
  exact ⟨_, perform_redrawAck s, redrawAckEvent_redraw s, (redrawAckEvent_frame s).symm⟩

end Sys2Proof.Machine
end

section
/-! PROOFS. Encoding (30_encoding.md): the decoder and the encoder undo each other, and agree with the opcode map. -/

namespace Sys2Proof

/-! ### A word written out from its fields -/

/-- Mask 0xFFF0 clears the low nibble (R78). -/
theorem and_FFF0 (w : Word) : w &&& 0xFFF0#16 = (fieldOp w ++ fieldX w ++ fieldY w ++ 0x0#4 : Word) := by
  apply BitVec.eq_of_getLsbD_eq
  intro i hi
  rw [getLsbD_xyn]
  simp only [fieldOp, fieldX, fieldY, BitVec.getLsbD_and, BitVec.getLsbD_extractLsb']
  interval_cases i <;> simp

/-! ### The fields by value, as R79's list reads them -/

theorem div_eq_fieldOp (w : Word) : w.toNat / 0x1000 = (fieldOp w).toNat := by
  have := w.isLt
  simp only [fieldOp, BitVec.extractLsb'_toNat, Nat.shiftRight_eq_div_pow]
  omega

theorem mod_eq_fieldN (w : Word) : w.toNat % 0x10 = (fieldN w).toNat := by
  simp [fieldN, BitVec.extractLsb'_toNat]

theorem setWidth_eq_fieldKK (w : Word) : w.setWidth 8 = fieldKK w := by
  apply BitVec.eq_of_toNat_eq
  simp [fieldKK, BitVec.extractLsb'_toNat]

/-- R79's list, read off the fields: only the families 0x0, 0x8, 0xE and 0xF have unmatched words. -/
theorem unmatchedWord_eq (w : Word) :
    unmatchedWord w =
      ((((fieldOp w).toNat == 0x0 && w != 0x00E0#16 && w != 0x00EE#16) ||
        ((fieldOp w).toNat == 0x8 && ((0x8 ≤ (fieldN w).toNat && (fieldN w).toNat ≤ 0xD) || (fieldN w).toNat == 0xF))) ||
        ((fieldOp w).toNat == 0xE && fieldKK w != 0x9E#8 && fieldKK w != 0xA1#8) ||
        ((fieldOp w).toNat == 0xF && !familyFKeys.contains (fieldKK w))) := by
  rw [unmatchedWord, div_eq_fieldOp, mod_eq_fieldN, setWidth_eq_fieldKK]

/-! ### A word of each format, from its family and its second key -/

section Keys
variable {w : Word} {o : Nibble} (ho : (fieldOp w).toNat = o.toNat)
include ho

theorem nnn_of_op : (o ++ fieldNNN w : Word) = w := by
  rw [← BitVec.eq_of_toNat_eq ho]; exact (word_eq_nnn w).symm

theorem xkk_of_op : (o ++ fieldX w ++ fieldKK w : Word) = w := by
  rw [← BitVec.eq_of_toNat_eq ho]; exact (word_eq_xkk w).symm

theorem xyn_of_op : (o ++ fieldX w ++ fieldY w ++ fieldN w : Word) = w := by
  rw [← BitVec.eq_of_toNat_eq ho]; exact (word_eq_xyn w).symm

theorem xkk_of_op_key {k : Byte} (hk : (fieldKK w).toNat = k.toNat) : (o ++ fieldX w ++ k : Word) = w := by
  rw [← BitVec.eq_of_toNat_eq hk]; exact xkk_of_op ho

theorem xyn_of_op_key {n : Nibble} (hn : (fieldN w).toNat = n.toNat) :
    (o ++ fieldX w ++ fieldY w ++ n : Word) = w := by
  rw [← BitVec.eq_of_toNat_eq hn]; exact xyn_of_op ho

/-- The canonical word of a register skip (R78). -/
theorem xy0_of_op : (o ++ fieldX w ++ fieldY w ++ 0x0#4 : Word) = w &&& 0xFFF0#16 := by
  rw [and_FFF0, BitVec.eq_of_toNat_eq ho]

end Keys

/-! ### Encoding a decoded word, by family -/

theorem encode_decodeFamily0 (w : Word) : encode (decodeFamily0 w) = w := by
  unfold decodeFamily0
  split
  · next h => exact h.symm
  · split
    · next h => exact h.symm
    · rfl

theorem encode_decodeFamily8 {w : Word} (ho : (fieldOp w).toNat = 0x8) : encode (decodeFamily8 w) = w := by
  unfold decodeFamily8
  split
  case h_10 => rfl
  all_goals exact xyn_of_op_key (o := 0x8#4) ho ‹_›

theorem encode_decodeFamilyE {w : Word} (ho : (fieldOp w).toNat = 0xE) : encode (decodeFamilyE w) = w := by
  unfold decodeFamilyE
  split
  case h_3 => rfl
  all_goals exact xkk_of_op_key (o := 0xE#4) ho ‹_›

theorem encode_decodeFamilyF {w : Word} (ho : (fieldOp w).toNat = 0xF) : encode (decodeFamilyF w) = w := by
  unfold decodeFamilyF
  split
  case h_10 => rfl
  all_goals exact xkk_of_op_key (o := 0xF#4) ho ‹_›

theorem encode_decode_of_not_skip {w : Word} (h5 : (fieldOp w).toNat ≠ 5) (h9 : (fieldOp w).toNat ≠ 9) :
    encode (decode w) = w := by
  unfold decode
  split
  case h_1 => exact encode_decodeFamily0 w
  case h_9 ho => exact encode_decodeFamily8 ho
  case h_15 ho => exact encode_decodeFamilyE ho
  case h_16 ho => exact encode_decodeFamilyF ho
  case h_6 ho => exact absurd ho h5
  case h_10 ho => exact absurd ho h9
  case h_2 ho => exact nnn_of_op (o := 0x1#4) ho
  case h_3 ho => exact nnn_of_op (o := 0x2#4) ho
  case h_11 ho => exact nnn_of_op (o := 0xA#4) ho
  case h_12 ho => exact nnn_of_op (o := 0xB#4) ho
  case h_4 ho => exact xkk_of_op (o := 0x3#4) ho
  case h_5 ho => exact xkk_of_op (o := 0x4#4) ho
  case h_7 ho => exact xkk_of_op (o := 0x6#4) ho
  case h_8 ho => exact xkk_of_op (o := 0x7#4) ho
  case h_13 ho => exact xkk_of_op (o := 0xC#4) ho
  case h_14 ho => exact xyn_of_op (o := 0xD#4) ho
  case h_17 => rfl

theorem decode_of_op_five {w : Word} (ho : (fieldOp w).toNat = 5) : decode w = .seReg (fieldX w) (fieldY w) := by
  unfold decode; simp only [ho]

theorem decode_of_op_nine {w : Word} (ho : (fieldOp w).toNat = 9) : decode w = .sneReg (fieldX w) (fieldY w) := by
  unfold decode; simp only [ho]

/-- Only the register skips have more than one word, and only they lose bits: their low nibble (R78). -/
theorem encode_decode (w : Word) :
    encode (decode w) = if fieldOp w = 0x5 ∨ fieldOp w = 0x9 then w &&& 0xFFF0 else w := by
  have hskip : (fieldOp w = 0x5 ∨ fieldOp w = 0x9) ↔ ((fieldOp w).toNat = 5 ∨ (fieldOp w).toNat = 9) := by
    simp [BitVec.toNat_eq]
  rw [if_congr hskip rfl rfl]
  by_cases h5 : (fieldOp w).toNat = 5
  · rw [if_pos (.inl h5), decode_of_op_five h5]
    exact xy0_of_op (o := 0x5#4) h5
  by_cases h9 : (fieldOp w).toNat = 9
  · rw [if_pos (.inr h9), decode_of_op_nine h9]
    exact xy0_of_op (o := 0x9#4) h9
  rw [if_neg (not_or_intro h5 h9)]
  exact encode_decode_of_not_skip h5 h9

/-! ### The unmatched words (R79) -/

theorem decodeFamily0_eq_nop_iff (w : Word) : decodeFamily0 w = .nop w ↔ w ≠ 0x00E0#16 ∧ w ≠ 0x00EE#16 := by
  unfold decodeFamily0
  split
  · next h => simp [h]
  · split
    · next h => simp [h]
    · next h0 h1 => simp [h0, h1]

theorem decodeFamily8_eq_nop_iff (w : Word) :
    decodeFamily8 w = .nop w ↔ (0x8 ≤ (fieldN w).toNat ∧ (fieldN w).toNat ≤ 0xD) ∨ (fieldN w).toNat = 0xF := by
  have := (fieldN w).isLt
  unfold decodeFamily8
  split
  case h_10 =>
    simp only [imp_false] at *
    simp only [true_iff]
    omega
  all_goals next hn => simp [hn]

theorem decodeFamilyE_eq_nop_iff (w : Word) : decodeFamilyE w = .nop w ↔ fieldKK w ≠ 0x9E#8 ∧ fieldKK w ≠ 0xA1#8 := by
  simp only [ne_eq, BitVec.toNat_eq]
  unfold decodeFamilyE
  split
  case h_3 h1 h2 => exact iff_of_true rfl ⟨h1, h2⟩
  all_goals next hk => simp [hk]

theorem decodeFamilyF_eq_nop_iff (w : Word) : decodeFamilyF w = .nop w ↔ fieldKK w ∉ familyFKeys := by
  simp only [familyFKeys, List.mem_cons, List.not_mem_nil, BitVec.toNat_eq]
  unfold decodeFamilyF
  split
  case h_10 =>
    simp only [imp_false] at *
    simp [*]
  all_goals next hk => simp [hk]

theorem decode_eq_nop_iff (w : Word) : decode w = .nop w ↔ unmatchedWord w = true := by
  rw [unmatchedWord_eq]
  unfold decode
  split
  case h_1 ho => simp [ho, decodeFamily0_eq_nop_iff]
  case h_9 ho => simp [ho, decodeFamily8_eq_nop_iff]
  case h_15 ho => simp [ho, decodeFamilyE_eq_nop_iff]
  case h_16 ho => simp [ho, decodeFamilyF_eq_nop_iff]
  case h_17 =>
    have := (fieldOp w).isLt
    simp only [imp_false] at *
    omega
  all_goals next ho => simp [ho]

/-- The term of an unmatched word is the only `nop` a word decodes to (log entry 12). -/
theorem eq_of_decode_eq_nop {w v : Word} (h : decode w = .nop v) : v = w := by
  have h5 : (fieldOp w).toNat ≠ 5 := fun h5 => by rw [decode_of_op_five h5] at h; cases h
  have h9 : (fieldOp w).toNat ≠ 9 := fun h9 => by rw [decode_of_op_nine h9] at h; cases h
  rw [← encode_decode_of_not_skip h5 h9, h]
  rfl

theorem Instr.wf_of_ne_nop {i : Instr} (h : ∀ v, i ≠ .nop v) : i.wf = true := by
  cases i
  case nop v => exact absurd rfl (h v)
  all_goals rfl

theorem Instr.row_ne_zero_of_ne_nop {i : Instr} (h : ∀ v, i ≠ .nop v) : i.row ≠ 0 := by
  cases i
  case nop v => exact absurd rfl (h v)
  all_goals exact Nat.succ_ne_zero _

theorem wf_decode (w : Word) : (decode w).wf = true := by
  by_cases h : ∃ v, decode w = .nop v
  · obtain ⟨v, hv⟩ := h
    obtain rfl := eq_of_decode_eq_nop hv
    rw [hv]
    exact (decode_eq_nop_iff v).1 hv
  · exact Instr.wf_of_ne_nop fun v hv => h ⟨v, hv⟩

/-! ### Decoding an encoding -/

/-- The decoder dispatches on the family and second key that the encoder wrote, and reads each operand back from its field. -/
theorem decode_encode {i : Instr} (h : i.wf = true) : decode (encode i) = i := by
  cases i
  case nop w => exact (decode_eq_nop_iff w).2 h
  case cls => rfl
  case ret => rfl
  all_goals simp [encode, decode, decodeFamily8, decodeFamilyE, decodeFamilyF]

/-! ### The opcode map (R77) -/

theorem encodesItsRow (i : Instr) : Laws.EncodesItsRow.Statement i := by
  cases i
  case cls => exact Laws.EncodesItsRow.cls
  case ret => exact Laws.EncodesItsRow.ret
  case jp nnn => exact Laws.EncodesItsRow.jp nnn
  case call nnn => exact Laws.EncodesItsRow.call nnn
  case seImm x kk => exact Laws.EncodesItsRow.seImm x kk
  case sneImm x kk => exact Laws.EncodesItsRow.sneImm x kk
  case seReg x y => exact Laws.EncodesItsRow.seReg x y
  case ldImm x kk => exact Laws.EncodesItsRow.ldImm x kk
  case addImm x kk => exact Laws.EncodesItsRow.addImm x kk
  case ldReg x y => exact Laws.EncodesItsRow.ldReg x y
  case orReg x y => exact Laws.EncodesItsRow.orReg x y
  case andReg x y => exact Laws.EncodesItsRow.andReg x y
  case xorReg x y => exact Laws.EncodesItsRow.xorReg x y
  case addReg x y => exact Laws.EncodesItsRow.addReg x y
  case sub x y => exact Laws.EncodesItsRow.sub x y
  case shr x y => exact Laws.EncodesItsRow.shr x y
  case subn x y => exact Laws.EncodesItsRow.subn x y
  case shl x y => exact Laws.EncodesItsRow.shl x y
  case sneReg x y => exact Laws.EncodesItsRow.sneReg x y
  case ldI nnn => exact Laws.EncodesItsRow.ldI nnn
  case jpV0 nnn => exact Laws.EncodesItsRow.jpV0 nnn
  case rnd x kk => exact Laws.EncodesItsRow.rnd x kk
  case drw x y n => exact Laws.EncodesItsRow.drw x y n
  case skp x => exact Laws.EncodesItsRow.skp x
  case sknp x => exact Laws.EncodesItsRow.sknp x
  case ldVxDT x => exact Laws.EncodesItsRow.ldVxDT x
  case ldVxK x => exact Laws.EncodesItsRow.ldVxK x
  case ldDT x => exact Laws.EncodesItsRow.ldDT x
  case ldST x => exact Laws.EncodesItsRow.ldST x
  case addI x => exact Laws.EncodesItsRow.addI x
  case ldF x => exact Laws.EncodesItsRow.ldF x
  case ldB x => exact Laws.EncodesItsRow.ldB x
  case stRegs x => exact Laws.EncodesItsRow.stRegs x
  case ldRegs x => exact Laws.EncodesItsRow.ldRegs x
  case nop w => exact Laws.EncodesItsRow.nop w

/-- A matched word matches the row its instruction has; for a register skip because the row's mask drops the low nibble. -/
theorem decode_matches_its_row {w : Word} (h : unmatchedWord w = false) :
    ∃ j row, (decode w).row = j + 1 ∧ opcodeMap[j]? = some row ∧ w &&& row.2 = row.1 := by
  by_cases h5 : (fieldOp w).toNat = 5
  · refine ⟨6, (0x5000, 0xF000), by rw [decode_of_op_five h5]; rfl, rfl, (and_F000 w).trans ?_⟩
    rw [BitVec.eq_of_toNat_eq (y := 0x5#4) h5]
    rfl
  by_cases h9 : (fieldOp w).toNat = 9
  · refine ⟨18, (0x9000, 0xF000), by rw [decode_of_op_nine h9]; rfl, rfl, (and_F000 w).trans ?_⟩
    rw [BitVec.eq_of_toNat_eq (y := 0x9#4) h9]
    rfl
  have hnop : ∀ v, decode w ≠ .nop v := fun v hv => by
    obtain rfl := eq_of_decode_eq_nop hv
    rw [(decode_eq_nop_iff v).1 hv] at h
    cases h
  obtain ⟨j, hj⟩ := Nat.exists_eq_succ_of_ne_zero (Instr.row_ne_zero_of_ne_nop hnop)
  rcases encodesItsRow (decode w) (wf_decode w) with ⟨h0, _⟩ | ⟨row, hrow, hmatch⟩
  · exact absurd h0 (Instr.row_ne_zero_of_ne_nop hnop)
  · rw [hj] at hrow
    rw [encode_decode_of_not_skip h5 h9] at hmatch
    exact ⟨j, row, hj, hrow, hmatch⟩

/-- No word matches two rows: any two rows differ in a bit that both masks keep. -/
theorem opcodeMap_disjoint : (opcodeMap.zipIdx.all fun r => opcodeMap.zipIdx.all fun r' =>
    r.2 == r'.2 || r.1.1 &&& r'.1.2 != r'.1.1 &&& r.1.2) = true := by decide

theorem row_unique {w : Word} {j k : Nat} {row row' : Word × Word} (hj : opcodeMap[j]? = some row)
    (hk : opcodeMap[k]? = some row') (hw : w &&& row.2 = row.1) (hw' : w &&& row'.2 = row'.1) : j = k := by
  have hagree : row.1 &&& row'.2 = row'.1 &&& row.2 := by
    rw [← hw, ← hw', BitVec.and_assoc, BitVec.and_assoc, BitVec.and_comm row.2]
  have hdisj := List.all_eq_true.1 (List.all_eq_true.1 opcodeMap_disjoint (row, j)
    (List.mk_mem_zipIdx_iff_getElem?.2 hj)) (row', k) (List.mk_mem_zipIdx_iff_getElem?.2 hk)
  simpa [hagree] using hdisj

/-- Each row's mask covers the keys its family dispatches on (R75, R76), and its match is no unmatched word. -/
theorem opcodeMap_masks : (opcodeMap.all fun row =>
    row.2 &&& 0xF000#16 == 0xF000#16 && !unmatchedWord row.1 &&
    ((fieldOp row.1).toNat != 0x0 || row.2 == 0xFFFF#16) && ((fieldOp row.1).toNat != 0x8 || row.2 == 0xF00F#16) &&
    ((fieldOp row.1).toNat != 0xE || row.2 == 0xF0FF#16) && ((fieldOp row.1).toNat != 0xF || row.2 == 0xF0FF#16)) =
    true := by decide

theorem fieldN_eq_of_mask {w v : Word} (h : w &&& 0xF00F#16 = v) : fieldN w = fieldN v := by
  rw [← h, and_F00F, fieldN_xyn]

theorem fieldKK_eq_of_mask {w v : Word} (h : w &&& 0xF0FF#16 = v) : fieldKK w = fieldKK v := by
  rw [← h, and_F0FF, fieldKK_xkk]

theorem fieldOp_eq_of_mask {w v m : Word} (hm : m &&& 0xF000#16 = 0xF000#16) (h : w &&& m = v) :
    fieldOp w = fieldOp v := by
  have hop : w &&& 0xF000#16 = v &&& 0xF000#16 := by rw [← h, BitVec.and_assoc, hm]
  rw [and_F000, and_F000] at hop
  simpa using congrArg fieldOp hop

/-- A word that matches a row has the row's keys, so it is no unmatched word. -/
theorem matched_of_row {w : Word} {row : Word × Word} (hrow : row ∈ opcodeMap) (h : w &&& row.2 = row.1) :
    unmatchedWord w = false := by
  have hmask := List.all_eq_true.1 opcodeMap_masks row hrow
  simp only [Bool.and_eq_true, Bool.or_eq_true, beq_iff_eq, bne_iff_ne, ne_eq, Bool.not_eq_true',
    ← Decidable.imp_iff_not_or] at hmask
  obtain ⟨⟨⟨⟨⟨hkeep, hmatched⟩, h0⟩, h8⟩, hE⟩, hF⟩ := hmask
  have hop := fieldOp_eq_of_mask hkeep h
  rw [← hop] at h0 h8 hE hF
  by_cases c0 : (fieldOp w).toNat = 0x0
  · rw [h0 c0, and_FFFF] at h
    rwa [h]
  rw [unmatchedWord_eq, ← hop] at hmatched
  rw [unmatchedWord_eq]
  by_cases c8 : (fieldOp w).toNat = 0x8
  · rw [h8 c8] at h
    simpa [c8, fieldN_eq_of_mask h] using hmatched
  by_cases cE : (fieldOp w).toNat = 0xE
  · rw [hE cE] at h
    simpa [cE, fieldKK_eq_of_mask h] using hmatched
  by_cases cF : (fieldOp w).toNat = 0xF
  · rw [hF cF] at h
    simpa [cF, fieldKK_eq_of_mask h] using hmatched
  simp [c0, c8, cE, cF]

/-! ### The obligations -/

/-- Settles O2: each field of the encoding reads its operand back; an unmatched word decodes to its own term. -/
theorem decodeOfEncodeIsIdentity : Obligations.DecodeOfEncodeIsIdentity := by
  intro i hwf
  exact decode_encode hwf

/-- Settles O3: a word is its fields, so only the nibble that the register skips ignore is lost. -/
theorem encodeOfDecodeIsCanonicalWord : Obligations.EncodeOfDecodeIsCanonicalWord := by
  intro w
  exact ⟨wf_decode w, encode_decode w⟩

/-- Settles O4: a matched word matches its own row and the rows are disjoint; an unmatched one matches none. -/
theorem wordSelectsItsOpcodeMapRow : Obligations.WordSelectsItsOpcodeMapRow := by
  refine ⟨rfl, fun w k row hk => ?_⟩
  cases hun : unmatchedWord w with
  | true =>
    have hno : w &&& row.2 ≠ row.1 := fun h => by
      rw [matched_of_row (List.mem_of_getElem? hk) h] at hun
      cases hun
    rw [(decode_eq_nop_iff w).2 hun]
    exact iff_of_false hno (Nat.succ_ne_zero k).symm
  | false =>
    obtain ⟨j, own, hrow, hj, hown⟩ := decode_matches_its_row hun
    rw [hrow, Nat.add_right_cancel_iff]
    constructor
    · exact fun h => row_unique hj hk hown h
    · rintro rfl
      rw [hj, Option.some.injEq] at hk
      exact hk ▸ hown

/-- Settles O6: the branches of the decoder that keep the word are R79's list, and the term's effect is the advance. -/
theorem unmatchedWordsAreNoOps : Obligations.UnmatchedWordsAreNoOps := by
  intro w
  exact ⟨decode_eq_nop_iff w, fun s => ⟨Machine.advance s, rfl, Machine.advance_pc s, rfl⟩⟩

/-- Settles O1: the decoder reads the fields of the eight words. -/
theorem writtenOutWordsDecode : Obligations.WrittenOutWordsDecode :=
  ⟨rfl, rfl, rfl, rfl, rfl, rfl, rfl, rfl⟩

/-- Settles O5: the families 5 and 9 read the fields `x` and `y` alone. -/
theorem registerSkipsIgnoreLowNibble : Obligations.RegisterSkipsIgnoreLowNibble := by
  intro x y n
  have h5 := decode_of_op_five (w := 0x5#4 ++ x ++ y ++ n) (by rw [fieldOp_xyn]; rfl)
  have h9 := decode_of_op_nine (w := 0x9#4 ++ x ++ y ++ n) (by rw [fieldOp_xyn]; rfl)
  rw [fieldX_xyn, fieldY_xyn] at h5 h9
  exact ⟨h5, h9, rfl, rfl⟩

end Sys2Proof
end

section
/-! PROOFS. What an instruction leaves, said once: fault entry where the table of causes names a fault (R181), and one named
effect elsewhere.  Every later proof about `exec` goes through `exec_eq_outcome`. -/

namespace Sys2Proof.Machine

/-! ### The updates that the model makes under a check -/

/-- What a pop answers at a depth above 0 (R100). -/
def popped (s : State) : State :=
  { s with sp := ⟨s.sp.val - 1, by omega⟩, pc := s.stack[s.sp.val - 1]'(by omega) }

/-- What a push answers at a depth below 16 (R102). -/
def pushed (s : State) : State :=
  { s with stack := s.stack.setIfInBounds s.sp.val s.pc, sp := ⟨min (s.sp.val + 1) 16, by omega⟩ }

/-- What wait-for-key leaves: the lowest pressed key's number taken, or everything as it was (R172). -/
def keyTaken (x : Nibble) (s : State) : State :=
  { s with
    v := match lowestKey s with | some k => s.v.set x.toNat (BitVec.ofNat 8 k) x.isLt | none => s.v
    pc := match lowestKey s with | some _ => s.pc + 2 | none => s.pc }

theorem popPc_eq_popped {s : State} (h : s.sp.val ≠ 0) : popPc s = some (popped s) :=
  popPc_of_pos (Nat.pos_of_ne_zero h)

theorem pushPc_eq_pushed {s : State} (h : s.sp.val ≠ 16) : pushPc s = some (pushed s) := by
  have hlt : s.sp.val < 16 := by omega
  have hset : s.stack.set s.sp.val s.pc hlt = s.stack.setIfInBounds s.sp.val s.pc := by
    ext j hj
    rw [Vector.getElem_set, Vector.getElem_setIfInBounds]
  have hmin : min (s.sp.val + 1) 16 = s.sp.val + 1 := by omega
  rw [pushPc_of_lt hlt, pushed]
  simp only [hset, hmin]

theorem execLdVxK_eq_keyTaken (x : Nibble) (s : State) : execLdVxK x s = .next (keyTaken x s) := by
  cases h : lowestKey s with
  | some k => rw [keyTaken, h]; exact exec_ldVxK_of_lowestKey_eq_some h x
  | none =>
    refine (exec_ldVxK_of_lowestKey_eq_none h x).trans ?_
    rw [jumpTo_sub_two_advance, keyTaken, h]

/-- The drawing that a draw in range makes (R151). -/
def spriteDrawing (x y n : Nibble) (s : State) : Drawing :=
  drawRows (Memory.readBlock s.mem (indexBase s) n.toNat) (getV s x).toNat (getV s y).toNat (s.fb, false)

/-! ### Effect and outcome -/

/-- The state an instruction leaves when it raises nothing. -/
def effect : Instr → State → State
  | .cls, s => setFramebuffer Framebuffer.blank (advance s)
  | .ret, s => popped (advance s)
  | .jp nnn, s => jumpTo (addrOperand nnn) (advance s)
  | .call nnn, s => jumpTo (addrOperand nnn) (pushed (advance s))
  | .seImm x kk, s => skipIf (getV s x == kk) (advance s)
  | .sneImm x kk, s => skipIf (getV s x != kk) (advance s)
  | .seReg x y, s => skipIf (getV s x == getV s y) (advance s)
  | .sneReg x y, s => skipIf (getV s x != getV s y) (advance s)
  | .ldImm x kk, s => setV (advance s) x kk
  | .addImm x kk, s => setV (advance s) x (getV s x + kk)
  | .ldReg x y, s => setV (advance s) x (getV s y)
  | .orReg x y, s => setV (advance s) x (getV s x ||| getV s y)
  | .andReg x y, s => setV (advance s) x (getV s x &&& getV s y)
  | .xorReg x y, s => setV (advance s) x (getV s x ^^^ getV s y)
  | .addReg x y, s => writeFlagThen (advance s) (carryFlag (getV s x) (getV s y)) x (getV s x + getV s y)
  | .sub x y, s => writeFlagThen (advance s) (noBorrowFlag (getV s x) (getV s y)) x (getV s x - getV s y)
  | .subn x y, s => writeFlagThen (advance s) (noBorrowFlag (getV s y) (getV s x)) x (getV s y - getV s x)
  | .shr x y, s => writeFlagThen (advance s) (rightLostBit (shiftOperand s x y)) x (shiftOperand s x y >>> 1)
  | .shl x y, s => writeFlagThen (advance s) (leftLostBit (shiftOperand s x y)) x (shiftOperand s x y <<< 1)
  | .ldI nnn, s => setI (addrOperand nnn) (advance s)
  | .addI x, s => setI (s.i + wideV s x) (advance s)
  | .ldF x, s => setI (wideV s x * 5) (advance s)
  | .jpV0 nnn, s => jumpTo (addrOperand nnn + wideV s 0) (advance s)
  | .rnd x kk, s => countDraw (setV (advance s) x (Config.rnd s.draws &&& kk))
  | .drw x y n, s =>
    setFramebuffer (spriteDrawing x y n s).1 (setV (advance s) flagReg (flagByte (spriteDrawing x y n s).2))
  | .skp x, s => skipIf ((keyOperand s x).getD false) (advance s)
  | .sknp x, s => skipIf (!(keyOperand s x).getD false) (advance s)
  | .ldVxDT x, s => setV (advance s) x s.dt
  | .ldVxK x, s => keyTaken x s
  | .ldDT x, s => setDT (getV s x) (advance s)
  | .ldST x, s => setST (getV s x) (advance s)
  | .ldB x, s => setMem (Memory.writeBlock s.mem (indexBase s) (bcdDigits (getV s x))) (advance s)
  | .stRegs x, s => advanceIndex (setMem (Memory.writeBlock s.mem (indexBase s) (registerBlock s x)) (advance s)) x
  | .ldRegs x, s => advanceIndex (loadRegisters (advance s) (indexBase s) x) x
  | .nop _, s => advance s

/-- The state an instruction leaves: fault entry where it raises, its effect elsewhere. -/
def outcome (i : Instr) (s : State) : State :=
  match i.raises s with
  | some (code, info) => raiseFault code (encode i) info s
  | none => effect i s

theorem outcome_of_raises {i : Instr} {s : State} {code : FaultCode} {info : Nat}
    (h : i.raises s = some (code, info)) : outcome i s = raiseFault code (encode i) info s := by
  rw [outcome, h]

theorem outcome_of_not_raises {i : Instr} {s : State} (h : i.raises s = none) : outcome i s = effect i s := by
  rw [outcome, h]

/-! ### The checks of the model are the table of causes (R181, R182) -/

theorem firstRaise_checkRead_eq (a n : Nat) :
    firstRaise checkRead a n = if n ≠ 0 ∧ 0xFFF < a + n - 1 then some (.readRange, max a 0x1000) else none := by
  split
  · next h => exact readBlock_raises h.1 (by omega)
  · next h => exact readBlock_passes.2 (by omega)

theorem firstRaise_checkWrite_eq (a n : Nat) :
    firstRaise checkWrite a (n + 1) =
      if a ≤ 0x04F then some (.glyphWrite, a)
      else if 0xFFF < a + n then some (.writeRange, max a 0x1000) else none := by
  split
  · next hg => exact writeBlock_raises_glyph (by omega) (by omega)
  · split
    · next hg hr => exact writeBlock_raises_range (by omega) (by omega) (by omega)
    · next hg hr => exact writeBlock_passes.2 (by omega)

theorem execRet_eq_outcome (s : State) : execRet s = .next (outcome .ret s) := by
  by_cases h : s.sp.val = 0
  · rw [execRet, popPc_eq_none (s := advance s).2 h, outcome_of_raises (i := .ret) (if_pos h)]
  · rw [execRet, popPc_eq_popped (s := advance s) h, outcome_of_not_raises (i := .ret) (if_neg h), effect]

theorem execCall_eq_outcome (nnn : Addr) (s : State) : execCall nnn s = .next (outcome (.call nnn) s) := by
  by_cases h : s.sp.val = 16
  · rw [execCall, pushPc_eq_none (s := advance s).2 h, outcome_of_raises (i := .call nnn) (if_pos h)]
  · rw [execCall, pushPc_eq_pushed (s := advance s) h, outcome_of_not_raises (i := .call nnn) (if_neg h), effect]

theorem execSkp_eq_outcome (x : Nibble) (s : State) : execSkp x s = .next (outcome (.skp x) s) := by
  cases hk : keyOperand s x with
  | none => rw [execSkp, hk, outcome_of_raises (i := .skp x) (if_pos (keyOperand_eq_none.1 hk))]
  | some pressed =>
    have h : ¬ 15 < (getV s x).toNat := fun h => by rw [keyOperand_eq_none.2 h] at hk; cases hk
    rw [execSkp, hk, outcome_of_not_raises (i := .skp x) (if_neg h), effect, hk, Option.getD_some]

theorem execSknp_eq_outcome (x : Nibble) (s : State) : execSknp x s = .next (outcome (.sknp x) s) := by
  cases hk : keyOperand s x with
  | none => rw [execSknp, hk, outcome_of_raises (i := .sknp x) (if_pos (keyOperand_eq_none.1 hk))]
  | some pressed =>
    have h : ¬ 15 < (getV s x).toNat := fun h => by rw [keyOperand_eq_none.2 h] at hk; cases hk
    rw [execSknp, hk, outcome_of_not_raises (i := .sknp x) (if_neg h), effect, hk, Option.getD_some]

theorem execDrw_eq_outcome (x y n : Nibble) (s : State) : execDrw x y n s = .next (outcome (.drw x y n) s) := by
  have hcheck : firstRaise checkRead (indexBase s) n.toNat = (Instr.drw x y n).raises s :=
    firstRaise_checkRead_eq _ _
  rw [execDrw, outcome, hcheck]
  cases (Instr.drw x y n).raises s <;> rfl

theorem execLdRegs_eq_outcome (x : Nibble) (s : State) : execLdRegs x s = .next (outcome (.ldRegs x) s) := by
  have hcheck : firstRaise checkRead (indexBase s) (x.toNat + 1) = (Instr.ldRegs x).raises s :=
    (firstRaise_checkRead_eq _ _).trans (if_congr (and_iff_right (Nat.succ_ne_zero _)) rfl rfl)
  rw [execLdRegs, outcome, hcheck]
  cases (Instr.ldRegs x).raises s <;> rfl

theorem execLdB_eq_outcome (x : Nibble) (s : State) : execLdB x s = .next (outcome (.ldB x) s) := by
  have hcheck : firstRaise checkWrite (indexBase s) 3 = (Instr.ldB x).raises s := firstRaise_checkWrite_eq _ 2
  rw [execLdB, outcome, hcheck]
  cases (Instr.ldB x).raises s <;> rfl

theorem execStRegs_eq_outcome (x : Nibble) (s : State) : execStRegs x s = .next (outcome (.stRegs x) s) := by
  have hcheck : firstRaise checkWrite (indexBase s) (x.toNat + 1) = (Instr.stRegs x).raises s :=
    firstRaise_checkWrite_eq _ _
  rw [execStRegs, outcome, hcheck]
  cases (Instr.stRegs x).raises s <;> rfl

/-- Everything `exec` can answer (R93, R181): the eight instructions with a check, and the others, which raise nothing. -/
theorem exec_eq_outcome (i : Instr) (s : State) : exec i s = .next (outcome i s) := by
  cases i
  case ret => exact execRet_eq_outcome s
  case call nnn => exact execCall_eq_outcome nnn s
  case skp x => exact execSkp_eq_outcome x s
  case sknp x => exact execSknp_eq_outcome x s
  case drw x y n => exact execDrw_eq_outcome x y n s
  case ldB x => exact execLdB_eq_outcome x s
  case stRegs x => exact execStRegs_eq_outcome x s
  case ldRegs x => exact execLdRegs_eq_outcome x s
  case ldVxK x => exact execLdVxK_eq_keyTaken x s
  all_goals rfl

theorem exec_of_raises {i : Instr} {s : State} {code : FaultCode} {info : Nat} (h : i.raises s = some (code, info)) :
    exec i s = .next (raiseFault code (encode i) info s) := by
  rw [exec_eq_outcome, outcome_of_raises h]

theorem exec_of_not_raises {i : Instr} {s : State} (h : i.raises s = none) : exec i s = .next (effect i s) := by
  rw [exec_eq_outcome, outcome_of_not_raises h]

/-- The two ways `exec` answers. -/
theorem exec_cases {i : Instr} {s t : State} (h : exec i s = .next t) :
    (∃ code info, i.raises s = some (code, info) ∧ t = raiseFault code (encode i) info s) ∨
    (i.raises s = none ∧ t = effect i s) := by
  cases hr : i.raises s with
  | some r =>
    rw [exec_of_raises hr] at h
    cases h
    exact .inl ⟨_, _, rfl, rfl⟩
  | none =>
    rw [exec_of_not_raises hr] at h
    cases h
    exact .inr ⟨rfl, rfl⟩

theorem faultsWith_raiseFault (code : FaultCode) (word : Word) (info : Nat) (s : State) :
    FaultsWith s (raiseFault code word info s) code word info := ⟨rfl, rfl⟩

theorem effect_fault (i : Instr) (s : State) : (effect i s).fault = s.fault := by
  cases i <;> simp [effect, popped, pushed, keyTaken]

/-- Settles O43: the outcome is fault entry or the effect, and no effect touches the latch. -/
theorem instructionsFaultExactlyAsTabulated : Obligations.InstructionsFaultExactlyAsTabulated := by
  intro i s
  refine ⟨_, exec_eq_outcome i s, fun code info h => ?_, fun h => ?_⟩
  · rw [outcome_of_raises h]
    exact faultsWith_raiseFault code (encode i) info s
  · rw [outcome_of_not_raises h, effect_fault]

end Sys2Proof.Machine
end

section
/-! PROOFS. Frames: which elements the effect of an instruction leaves alone (R20 to R32, R38, R97). -/

namespace Sys2Proof.Machine

/-! ### Registers -/

@[simp] theorem getV_popped (s : State) (r : Nibble) : getV (popped s) r = getV s r := rfl

@[simp] theorem getV_pushed (s : State) (r : Nibble) : getV (pushed s) r = getV s r := rfl

theorem getV_keyTaken_of_ne {x r : Nibble} (h : r ≠ x) (s : State) : getV (keyTaken x s) r = getV s r := by
  cases hk : lowestKey s with
  | none => exact getV_congr _ _ (by rw [keyTaken, hk]) r
  | some k =>
    have hv : (keyTaken x s).v = (setV s x (BitVec.ofNat 8 k)).v := by rw [keyTaken, hk]; rfl
    exact (getV_congr _ _ hv r).trans (getV_setV_of_ne s _ h)

/-- R20 to R22: for each instruction, the register lies outside the writes that `mayWrite` lists. -/
theorem getV_effect_of_not_mayWrite {i : Instr} {r : Nibble} (h : i.mayWrite r = false) (s : State) :
    getV (effect i s) r = getV s r := by
  cases i
  case ldVxK x => exact getV_keyTaken_of_ne (by simpa [Instr.mayWrite] using h) s
  all_goals
    simp only [Instr.mayWrite, Bool.or_eq_false_iff, beq_eq_false_iff_ne, decide_eq_false_iff_not] at h
    simp [effect, getV_setV, getV_writeFlagThen, getV_loadRegisters, h, eq_comm]

/-! ### Special elements -/

section Fields
variable (i : Instr) (s : State)

theorem effect_keypad : (effect i s).keypad = s.keypad := by
  cases i <;> simp [effect, popped, pushed, keyTaken]

theorem effect_params : (effect i s).params = s.params := by
  cases i <;> simp [effect, popped, pushed, keyTaken]

theorem effect_schedule : (effect i s).schedule = s.schedule := by
  cases i <;> simp [effect, popped, pushed, keyTaken]

variable {i}

theorem effect_dt (h : ∀ x, i ≠ .ldDT x) : (effect i s).dt = s.dt := by
  cases i
  case ldDT x => exact absurd rfl (h x)
  all_goals simp [effect, popped, pushed, keyTaken]

theorem effect_st (h : ∀ x, i ≠ .ldST x) : (effect i s).st = s.st := by
  cases i
  case ldST x => exact absurd rfl (h x)
  all_goals simp [effect, popped, pushed, keyTaken]

theorem effect_fb_redraw (hcls : i ≠ .cls) (hdrw : ∀ x y n, i ≠ .drw x y n) :
    (effect i s).fb = s.fb ∧ (effect i s).redraw = s.redraw := by
  cases i
  case cls => exact absurd rfl hcls
  case drw x y n => exact absurd rfl (hdrw x y n)
  all_goals simp [effect, popped, pushed, keyTaken]

theorem effect_redraw_of_redraw (h : s.redraw = true) : (effect i s).redraw = true := by
  cases i <;> simp [effect, popped, pushed, keyTaken, h]

theorem effect_sp (hret : i ≠ .ret) (hcall : ∀ a, i ≠ .call a) : (effect i s).sp = s.sp := by
  cases i
  case ret => exact absurd rfl hret
  case call a => exact absurd rfl (hcall a)
  all_goals simp [effect, keyTaken]

theorem effect_stack (h : ∀ a, i ≠ .call a) : (effect i s).stack = s.stack := by
  cases i
  case call a => exact absurd rfl (h a)
  all_goals simp [effect, popped, keyTaken]

theorem effect_i (hldI : ∀ a, i ≠ .ldI a) (haddI : ∀ x, i ≠ .addI x) (hldF : ∀ x, i ≠ .ldF x)
    (hst : ∀ x, i ≠ .stRegs x) (hld : ∀ x, i ≠ .ldRegs x) : (effect i s).i = s.i := by
  cases i
  case ldI a => exact absurd rfl (hldI a)
  case addI x => exact absurd rfl (haddI x)
  case ldF x => exact absurd rfl (hldF x)
  case stRegs x => exact absurd rfl (hst x)
  case ldRegs x => exact absurd rfl (hld x)
  all_goals simp [effect, popped, pushed, keyTaken]

theorem effect_draws (h : ∀ x k, i ≠ .rnd x k) : (effect i s).draws = s.draws := by
  cases i
  case rnd x k => exact absurd rfl (h x k)
  all_goals simp [effect, popped, pushed, keyTaken]

theorem effect_mem (hB : ∀ x, i ≠ .ldB x) (hst : ∀ x, i ≠ .stRegs x) : (effect i s).mem = s.mem := by
  cases i
  case ldB x => exact absurd rfl (hB x)
  case stRegs x => exact absurd rfl (hst x)
  all_goals simp [effect, popped, pushed, keyTaken]

end Fields

/-! ### Stored blocks -/

theorem raises_ldB_eq_none {x : Nibble} {s : State} :
    (Instr.ldB x).raises s = none ↔ 0x50 ≤ indexBase s ∧ indexBase s + 2 ≤ 0xFFF := by
  simp only [Instr.raises, indexBase]
  split
  · simp; omega
  · split <;> simp <;> omega

theorem raises_stRegs_eq_none {x : Nibble} {s : State} :
    (Instr.stRegs x).raises s = none ↔ 0x50 ≤ indexBase s ∧ indexBase s + x.toNat ≤ 0xFFF := by
  simp only [Instr.raises, indexBase]
  split
  · simp; omega
  · split <;> simp <;> omega

theorem effect_ldB_mem (x : Nibble) (s : State) :
    (effect (.ldB x) s).mem = Memory.writeBlock s.mem (indexBase s) (bcdDigits (getV s x)) := rfl

theorem effect_stRegs_mem (x : Nibble) (s : State) :
    (effect (.stRegs x) s).mem = Memory.writeBlock s.mem (indexBase s) (registerBlock s x) :=
  advanceIndex_mem _ x

theorem bcdDigits_fit {s : State} (h : indexBase s + 2 ≤ 0xFFF) (w : Byte) :
    indexBase s + (bcdDigits w).length ≤ memSize := by
  rw [bcdDigits_length, memSize]; omega

theorem registerBlock_fits {s : State} {x : Nibble} (h : indexBase s + x.toNat ≤ 0xFFF) :
    indexBase s + (registerBlock s x).length ≤ memSize := by
  rw [registerBlock_length, memSize]; omega

/-- R59: outside the block that an instruction stores, its effect leaves every byte. -/
theorem read_effect_of_outside {i : Instr} {s : State} {a : Nat} (hm : Memory.wf s.mem = true)
    (hr : i.raises s = none) (hB : ∀ x, i = .ldB x → a < indexBase s ∨ indexBase s + 3 ≤ a)
    (hst : ∀ x, i = .stRegs x → a < indexBase s ∨ indexBase s + x.toNat + 1 ≤ a) :
    Memory.read (effect i s).mem a = Memory.read s.mem a := by
  by_cases cB : ∃ x, i = .ldB x
  · obtain ⟨x, rfl⟩ := cB
    rw [effect_ldB_mem]
    exact Memory.read_writeBlock_of_outside hm (bcdDigits_fit (raises_ldB_eq_none.1 hr).2 _) (hB x rfl)
  by_cases cst : ∃ x, i = .stRegs x
  · obtain ⟨x, rfl⟩ := cst
    rw [effect_stRegs_mem]
    refine Memory.read_writeBlock_of_outside hm (registerBlock_fits (raises_stRegs_eq_none.1 hr).2) ?_
    rw [registerBlock_length]
    exact hst x rfl
  · rw [effect_mem s (fun x h => cB ⟨x, h⟩) fun x h => cst ⟨x, h⟩]

/-! ### A different keypad, a different place in the random sequence (R97) -/

/-- What an instruction raises depends on the registers, `I` and the depth alone (R181). -/
theorem raises_congr (s t : State) (hv : t.v = s.v) (hi : t.i = s.i) (hsp : t.sp = s.sp) (i : Instr) :
    i.raises t = i.raises s := by
  cases i <;> simp only [Instr.raises, hi, hsp, getV_congr s t hv]

/-- A conditional update of `pc` or `I` commutes with an update of the elements it does not read. -/
theorem skipIf_advance_keypad (cond : Bool) (s : State) (keys : Vector Bool 16) :
    skipIf cond (advance { s with keypad := keys }) = { skipIf cond (advance s) with keypad := keys } := by
  cases cond <;> rfl

theorem skipIf_advance_draws (cond : Bool) (s : State) (d : Nat) :
    skipIf cond (advance { s with draws := d }) = { skipIf cond (advance s) with draws := d } := by
  cases cond <;> rfl

theorem advanceIndex_keypad_update (s : State) (x : Nibble) (keys : Vector Bool 16) :
    advanceIndex { s with keypad := keys } x = { advanceIndex s x with keypad := keys } := by
  unfold advanceIndex; split <;> rfl

theorem advanceIndex_draws_update (s : State) (x : Nibble) (d : Nat) :
    advanceIndex { s with draws := d } x = { advanceIndex s x with draws := d } := by
  unfold advanceIndex; split <;> rfl

theorem effect_keypad_update {i : Instr} (s : State) (keys : Vector Bool 16) (hskp : ∀ x, i ≠ .skp x)
    (hsknp : ∀ x, i ≠ .sknp x) (hK : ∀ x, i ≠ .ldVxK x) :
    effect i { s with keypad := keys } = { effect i s with keypad := keys } := by
  cases i
  case skp x => exact absurd rfl (hskp x)
  case sknp x => exact absurd rfl (hsknp x)
  case ldVxK x => exact absurd rfl (hK x)
  case seImm x kk => exact skipIf_advance_keypad _ s keys
  case sneImm x kk => exact skipIf_advance_keypad _ s keys
  case seReg x y => exact skipIf_advance_keypad _ s keys
  case sneReg x y => exact skipIf_advance_keypad _ s keys
  case stRegs x =>
    exact advanceIndex_keypad_update (setMem (Memory.writeBlock s.mem (indexBase s) (registerBlock s x)) (advance s)) x keys
  case ldRegs x => exact advanceIndex_keypad_update (loadRegisters (advance s) (indexBase s) x) x keys
  all_goals rfl

theorem effect_draws_update {i : Instr} (s : State) (d : Nat) (hrnd : ∀ x k, i ≠ .rnd x k) :
    effect i { s with draws := d } = { effect i s with draws := d } := by
  cases i
  case rnd x k => exact absurd rfl (hrnd x k)
  case skp x => exact skipIf_advance_draws _ s d
  case sknp x => exact skipIf_advance_draws _ s d
  case seImm x kk => exact skipIf_advance_draws _ s d
  case sneImm x kk => exact skipIf_advance_draws _ s d
  case seReg x y => exact skipIf_advance_draws _ s d
  case sneReg x y => exact skipIf_advance_draws _ s d
  case stRegs x =>
    exact advanceIndex_draws_update (setMem (Memory.writeBlock s.mem (indexBase s) (registerBlock s x)) (advance s)) x d
  case ldRegs x => exact advanceIndex_draws_update (loadRegisters (advance s) (indexBase s) x) x d
  all_goals rfl

/-! ### The obligations -/

/-- Settles O23: fault entry keeps every register, and the effect writes only those that `mayWrite` names. -/
theorem registersChangeOnlyWhereNamed : Obligations.RegistersChangeOnlyWhereNamed := by
  intro i s t r hexec hr
  obtain ⟨code, info, -, rfl⟩ | ⟨-, rfl⟩ := exec_cases hexec
  · exact getV_raiseFault s code (encode i) info r
  · exact getV_effect_of_not_mayWrite hr s

/-- Settles O28: fault entry keeps memory, and the effect writes only the block it stores. -/
theorem memoryChangesOnlyInTheStoredBlock : Obligations.MemoryChangesOnlyInTheStoredBlock := by
  intro i s t a hm hexec hB hst
  obtain ⟨code, info, -, rfl⟩ | ⟨hr, rfl⟩ := exec_cases hexec
  · rw [raiseFault_mem]
  · exact read_effect_of_outside hm hr hB hst

/-- Settles O45: of the instructions left, each takes its effect on the advanced state and does not write `pc` again. -/
theorem otherInstructionsAdvanceByTwo : Obligations.OtherInstructionsAdvanceByTwo := by
  intro i s t hexec hr hret hjp hcall hjpV0 hseImm hsneImm hseReg hsneReg hskp hsknp hK
  rw [exec_of_not_raises hr] at hexec
  cases hexec
  cases i
  case ret => exact absurd rfl hret
  case jp a => exact absurd rfl (hjp a)
  case call a => exact absurd rfl (hcall a)
  case jpV0 a => exact absurd rfl (hjpV0 a)
  case seImm x k => exact absurd rfl (hseImm x k)
  case sneImm x k => exact absurd rfl (hsneImm x k)
  case seReg x y => exact absurd rfl (hseReg x y)
  case sneReg x y => exact absurd rfl (hsneReg x y)
  case skp x => exact absurd rfl (hskp x)
  case sknp x => exact absurd rfl (hsknp x)
  case ldVxK x => exact absurd rfl (hK x)
  all_goals simp [effect]

/-- Settles O46: fault entry keeps every element, and each element's frame of the effect names its writers. -/
theorem instructionsKeepToTheWriteMatrix : Obligations.InstructionsKeepToTheWriteMatrix := by
  intro i s t hexec
  obtain ⟨code, info, -, rfl⟩ | ⟨-, rfl⟩ := exec_cases hexec
  · exact ⟨rfl, rfl, rfl, fun _ => rfl, fun _ => rfl, fun _ _ => ⟨rfl, rfl⟩, id, fun _ _ => rfl, fun _ => rfl,
      fun _ _ _ _ _ => rfl, fun _ => rfl⟩
  · exact ⟨effect_keypad i s, effect_params i s, effect_schedule i s, effect_dt s, effect_st s, effect_fb_redraw s,
      effect_redraw_of_redraw s, effect_sp s, effect_stack s, effect_i s, effect_draws s⟩

/-- Settles O47: the table of causes reads neither input, and the effect commutes with changing it. -/
theorem inputsMatterOnlyToTheirInstructions : Obligations.InputsMatterOnlyToTheirInstructions := by
  intro i s t keys d hexec
  have hkeys : i.raises { s with keypad := keys } = i.raises s :=
    raises_congr s { s with keypad := keys } rfl rfl rfl i
  have hdraws : i.raises { s with draws := d } = i.raises s :=
    raises_congr s { s with draws := d } rfl rfl rfl i
  obtain ⟨code, info, hr, rfl⟩ | ⟨hr, rfl⟩ := exec_cases hexec
  · exact ⟨fun _ _ _ => exec_of_raises (hkeys.trans hr), fun _ => exec_of_raises (hdraws.trans hr)⟩
  · exact ⟨fun hskp hsknp hK => by
        rw [exec_of_not_raises (hkeys.trans hr), effect_keypad_update s keys hskp hsknp hK],
      fun hrnd => by rw [exec_of_not_raises (hdraws.trans hr), effect_draws_update s d hrnd]⟩

end Sys2Proof.Machine
end

section
/-! PROOFS. The step cycle and the three invariants (R24, R33, R51): what a `STEP` can answer, said once, and one induction
over the events. -/

namespace Sys2Proof.Machine

/-! ### What a `STEP` can answer -/

/-- Log entry 5: the encoding of an instruction that raises is the word it was decoded from, since the register skips, the
only instructions with several words, raise nothing. -/
theorem encode_decode_of_raises {w : Word} {s : State} {r : FaultCode × Nat} (h : (decode w).raises s = some r) :
    encode (decode w) = w := by
  refine encode_decode_of_not_skip (fun h5 => ?_) fun h9 => ?_
  · rw [decode_of_op_five h5] at h
    cases h
  · rw [decode_of_op_nine h9] at h
    cases h

/-- The four ways a `STEP` answers: nothing on a faulted core (R95), the fetch fault (R91), the fault of the fetched
instruction (R184), or its effect (R93). -/
theorem stepEvent_next_cases {s t : State} (h : stepEvent s = .next t) :
    (s.fault ≠ none ∧ t = s) ∨
    (s.fault = none ∧ lastFetch < s.pc.toNat ∧ fetch s = none ∧ t = raiseFault .fetchRange 0 s.pc.toNat s) ∨
    (∃ w code info, s.fault = none ∧ fetch s = some w ∧ (decode w).raises s = some (code, info) ∧
      t = raiseFault code w info s) ∨
    (∃ w, s.fault = none ∧ s.pc.toNat ≤ lastFetch ∧ fetch s = some w ∧ (decode w).raises s = none ∧
      t = effect (decode w) s) := by
  obtain ⟨hf, hs⟩ | ⟨hf, hpc, hw, hs⟩ | ⟨w, hf, hpc, hw, hs⟩ := stepEvent_cases s
  · rw [hs] at h
    cases h
    exact .inl ⟨Option.isSome_iff_ne_none.1 hf, rfl⟩
  · rw [hs] at h
    cases h
    exact .inr (.inl ⟨hf, hpc, hw, rfl⟩)
  · rw [hs] at h
    obtain ⟨code, info, hr, rfl⟩ | ⟨hr, rfl⟩ := exec_cases h
    · rw [encode_decode_of_raises hr]
      exact .inr (.inr (.inl ⟨w, code, info, hf, hw, hr, rfl⟩))
    · exact .inr (.inr (.inr ⟨w, hf, hpc, hw, hr, rfl⟩))

theorem resetEvent_next {program : List Byte} {s t : State} (h : resetEvent program s = .next t) :
    program.length ≤ programMax ∧ t = resetWith program s := by
  unfold resetEvent at h
  split at h
  · next hlen =>
    cases h
    exact ⟨hlen, rfl⟩
  · cases h

/-- An invariant holds along every step when each event keeps it and it does not read the schedule (R6, log entry 1). -/
theorem step_keeps {P : State → Prop} (hschedule : ∀ s rest, P s → P { s with schedule := rest })
    (hstep : ∀ s t, P s → stepEvent s = .next t → P t) (htick : ∀ s, P s → P (tickEvent s))
    (hkey : ∀ k pressed s, P s → P (keyEvent k pressed s)) (hack : ∀ s, P s → P (redrawAckEvent s))
    (hreset : ∀ program s, program.length ≤ programMax → P (resetWith program s)) {s t : State} (hs : P s)
    (h : step s = .next t) : P t := by
  obtain ⟨rest, hrest⟩ := nextEvent_state s
  have hnow : P (nextEvent s).2 := hrest ▸ hschedule s rest hs
  unfold step at h
  generalize (nextEvent s).2 = now at hnow h
  cases he : (nextEvent s).1 with rw [he] at h
  | step => exact hstep now t hnow h
  | tick => cases h; exact htick now hnow
  | keySet k => cases h; exact hkey k true now hnow
  | keyClear k => cases h; exact hkey k false now hnow
  | redrawAck => cases h; exact hack now hnow
  | reset program =>
    obtain ⟨hlen, rfl⟩ := resetEvent_next h
    exact hreset program now hlen

/-! ### Memory (R51, R58) -/

theorem memoryInv_congr {s t : State} (hm : t.mem = s.mem) (h : MemoryInv s) : MemoryInv t := by
  unfold MemoryInv; rwa [hm]

theorem memoryInv_effect {i : Instr} {s : State} (h : MemoryInv s) (hr : i.raises s = none) :
    MemoryInv (effect i s) := by
  obtain ⟨hwf, hglyphs⟩ := h
  have hread : ∀ a, a < 0x50 → Memory.read (effect i s).mem a = glyphs.getD a 0 := fun a ha => by
    rw [← hglyphs a ha]
    refine read_effect_of_outside hwf hr (fun x hx => ?_) fun x hx => ?_
    · subst hx
      exact .inl (Nat.lt_of_lt_of_le ha (raises_ldB_eq_none.1 hr).1)
    · subst hx
      exact .inl (Nat.lt_of_lt_of_le ha (raises_stRegs_eq_none.1 hr).1)
  refine ⟨?_, hread⟩
  by_cases cB : ∃ x, i = .ldB x
  · obtain ⟨x, rfl⟩ := cB
    rw [effect_ldB_mem]
    exact Memory.wf_writeBlock hwf (bcdDigits_fit (raises_ldB_eq_none.1 hr).2 _)
  by_cases cst : ∃ x, i = .stRegs x
  · obtain ⟨x, rfl⟩ := cst
    rw [effect_stRegs_mem]
    exact Memory.wf_writeBlock hwf (registerBlock_fits (raises_stRegs_eq_none.1 hr).2)
  · rwa [effect_mem s (fun x h => cB ⟨x, h⟩) fun x h => cst ⟨x, h⟩]

theorem memoryInv_stepEvent {s t : State} (hs : MemoryInv s) (h : stepEvent s = .next t) : MemoryInv t := by
  obtain ⟨-, rfl⟩ | ⟨-, -, -, rfl⟩ | ⟨w, code, info, -, -, -, rfl⟩ | ⟨w, -, -, -, hr, rfl⟩ := stepEvent_next_cases h
  · exact hs
  · exact memoryInv_congr rfl hs
  · exact memoryInv_congr rfl hs
  · exact memoryInv_effect hs hr

/-- What the loader leaves below the program (R60, R211). -/
theorem read_loadProgram_of_lt {program : List Byte} (h : program.length ≤ programMax) {a : Nat}
    (ha : a < programBase) : Memory.read (loadProgram program) a = glyphs.getD a 0 := by
  rw [loadProgram, Memory.read_writeBlock_of_outside rfl _ (.inl ha)]
  · rfl
  · unfold programMax at h
    unfold programBase memSize
    omega

theorem memoryInv_resetWith {program : List Byte} (h : program.length ≤ programMax) (s : State) :
    MemoryInv (resetWith program s) :=
  ⟨wf_loadProgram h, fun _ ha => read_loadProgram_of_lt h (Nat.lt_trans ha (by decide))⟩

/-! ### Control flow (R24) -/

theorem controlInv_congr {s t : State} (hpc : t.pc = s.pc) (hstack : t.stack = s.stack) (hsp : t.sp = s.sp)
    (h : ControlInv s) : ControlInv t := by
  unfold ControlInv; rwa [hpc, hstack, hsp]

/-- The advance of a fetched instruction does not wrap. -/
theorem pc_add_two_toNat {s : State} (h : s.pc.toNat ≤ lastFetch) : (s.pc + 2).toNat = s.pc.toNat + 2 := by
  unfold lastFetch at h
  bv_omega

theorem skipIf_advance_pc_le (cond : Bool) {s : State} (h : s.pc.toNat ≤ lastFetch) :
    (skipIf cond (advance s)).pc.toNat ≤ 0x10FE := by
  unfold lastFetch at h
  rw [skipIf_pc, advance_pc]
  split <;> bv_omega

theorem addrOperand_le (nnn : Addr) : (addrOperand nnn).toNat ≤ 0xFFF := by
  rw [addrOperand_toNat]
  exact Nat.le_of_lt_succ nnn.isLt

/-- R107: an address and a byte add up to at most 0x10FE, so the 16-bit sum is the unbounded one. -/
theorem addrOperand_add_wideV_toNat (nnn : Addr) (s : State) (r : Nibble) :
    (addrOperand nnn + wideV s r).toNat = nnn.toNat + (getV s r).toNat := by
  have := nnn.isLt
  have := (getV s r).isLt
  rw [BitVec.toNat_add, addrOperand_toNat, wideV_toNat]
  omega

/-- Every instruction but return leaves `pc` within the reach of a jump-with-offset from a fetched address. -/
theorem effect_pc_le {i : Instr} {s : State} (h : s.pc.toNat ≤ lastFetch) (hret : i ≠ .ret) :
    (effect i s).pc.toNat ≤ 0x10FE := by
  have hnext : (s.pc + 2).toNat ≤ 0x10FE := by
    rw [pc_add_two_toNat h]
    unfold lastFetch at h
    omega
  cases i
  case ret => exact absurd rfl hret
  case jp nnn => exact Nat.le_trans (addrOperand_le nnn) (by decide)
  case call nnn => exact Nat.le_trans (addrOperand_le nnn) (by decide)
  case jpV0 nnn =>
    have := nnn.isLt
    have := (getV s 0).isLt
    simp only [effect, jumpTo_pc, addrOperand_add_wideV_toNat]
    omega
  case seImm x kk => exact skipIf_advance_pc_le _ h
  case sneImm x kk => exact skipIf_advance_pc_le _ h
  case seReg x y => exact skipIf_advance_pc_le _ h
  case sneReg x y => exact skipIf_advance_pc_le _ h
  case skp x => exact skipIf_advance_pc_le _ h
  case sknp x => exact skipIf_advance_pc_le _ h
  case ldVxK x =>
    simp only [effect, keyTaken]
    split
    · exact hnext
    · exact Nat.le_trans h (by decide)
  all_goals simpa [effect] using hnext

/-- R100: a return goes to an address in use, which is at most 0x1000, and uses one entry fewer. -/
theorem controlInv_popped {s : State} (h : ControlInv s) (hsp : s.sp.val ≠ 0) : ControlInv (popped (advance s)) := by
  obtain ⟨-, hstack⟩ := h
  refine ⟨?_, fun j hj => hstack j (Nat.lt_of_lt_of_le hj (Nat.sub_le _ _))⟩
  exact Nat.le_trans (hstack ⟨s.sp.val - 1, by omega⟩ (by simp only; omega)) (by decide)

/-- R102: a call adds the address after it, which is at most 0x1000. -/
theorem controlInv_pushed {s : State} (h : ControlInv s) (hpc : s.pc.toNat ≤ lastFetch) (nnn : Addr) :
    ControlInv (effect (.call nnn) s) := by
  obtain ⟨-, hstack⟩ := h
  refine ⟨effect_pc_le hpc (by simp), fun j hj => ?_⟩
  simp only [effect, pushed, jumpTo_stack, jumpTo_sp, advance_stack, advance_sp, advance_pc, Fin.getElem_fin,
    Vector.getElem_setIfInBounds] at hj ⊢
  split
  · rw [pc_add_two_toNat hpc]
    unfold lastFetch at hpc
    omega
  · exact hstack j (by omega)

theorem controlInv_effect {i : Instr} {s : State} (h : ControlInv s) (hpc : s.pc.toNat ≤ lastFetch)
    (hr : i.raises s = none) : ControlInv (effect i s) := by
  by_cases cret : i = .ret
  · subst cret
    refine controlInv_popped h fun hsp => ?_
    rw [Instr.raises, if_pos hsp] at hr
    cases hr
  by_cases ccall : ∃ nnn, i = .call nnn
  · obtain ⟨nnn, rfl⟩ := ccall
    exact controlInv_pushed h hpc nnn
  · have hcall : ∀ nnn, i ≠ .call nnn := fun nnn hi => ccall ⟨nnn, hi⟩
    refine ⟨effect_pc_le hpc cret, ?_⟩
    rw [effect_stack s hcall, effect_sp s cret hcall]
    exact h.2

theorem controlInv_stepEvent {s t : State} (hs : ControlInv s) (h : stepEvent s = .next t) : ControlInv t := by
  obtain ⟨-, rfl⟩ | ⟨-, -, -, rfl⟩ | ⟨w, code, info, -, -, -, rfl⟩ | ⟨w, -, hpc, -, hr, rfl⟩ := stepEvent_next_cases h
  · exact hs
  · exact controlInv_congr rfl rfl rfl hs
  · exact controlInv_congr rfl rfl rfl hs
  · exact controlInv_effect hs hpc hr

theorem controlInv_reset : ControlInv State.reset :=
  ⟨by decide, fun j hj => absurd hj (Nat.not_lt_zero j.val)⟩

/-! ### The fault latch (R33, R184) -/

theorem fetch_congr (s t : State) (hpc : t.pc = s.pc) (hm : t.mem = s.mem) : fetch t = fetch s := by
  unfold fetch; rw [hpc, hm]

theorem latchInv_of_fault_eq_none {s : State} (h : s.fault = none) : LatchInv s := fun f hf => by
  rw [h] at hf
  cases hf

/-- The latch invariant reads the latch, `pc`, memory and what the causes depend on. -/
theorem latchInv_congr {s t : State} (hf : t.fault = s.fault) (hpc : t.pc = s.pc) (hm : t.mem = s.mem) (hv : t.v = s.v)
    (hi : t.i = s.i) (hsp : t.sp = s.sp) (h : LatchInv s) : LatchInv t := by
  intro f hft
  rw [hf] at hft
  rw [hpc, fetch_congr s t hpc hm, raises_congr s t hv hi hsp]
  exact h f hft

theorem latchInv_stepEvent {s t : State} (hs : LatchInv s) (h : stepEvent s = .next t) : LatchInv t := by
  obtain ⟨-, rfl⟩ | ⟨-, hpc, -, rfl⟩ | ⟨w, code, info, -, hw, hr, rfl⟩ | ⟨w, hf, -, -, -, rfl⟩ :=
    stepEvent_next_cases h
  · exact hs
  · intro f hf
    cases hf
    exact ⟨rfl, .inl ⟨rfl, rfl, rfl, hpc⟩⟩
  · intro f hf
    cases hf
    exact ⟨rfl, .inr ⟨hw, (raises_congr s (raiseFault code w info s) rfl rfl rfl _).trans hr⟩⟩
  · exact latchInv_of_fault_eq_none ((effect_fault _ s).trans hf)

/-! ### The obligations -/

/-- Settles O51: only the two stores and `RESET` write memory, the stores above the glyph table. -/
theorem stepKeepsMemoryInv : Obligations.StepKeepsMemoryInv := by
  intro s t hs h
  exact step_keeps (P := MemoryInv) (fun _ _ => memoryInv_congr rfl) (fun _ _ => memoryInv_stepEvent)
    (fun _ => memoryInv_congr rfl) (fun _ _ _ => memoryInv_congr rfl) (fun _ => memoryInv_congr rfl)
    (fun _ s hlen => memoryInv_resetWith hlen s) hs h

/-- Settles O52: an effect starts from a `pc` that a fetch accepts, and the other events keep `pc` and the stack. -/
theorem stepKeepsControlInv : Obligations.StepKeepsControlInv := by
  intro s t hs h
  exact step_keeps (P := ControlInv) (fun _ _ => controlInv_congr rfl rfl rfl) (fun _ _ => controlInv_stepEvent)
    (fun _ => controlInv_congr rfl rfl rfl) (fun _ _ _ => controlInv_congr rfl rfl rfl)
    (fun _ => controlInv_congr rfl rfl rfl) (fun _ _ _ => controlInv_congr rfl rfl rfl controlInv_reset) hs h

/-- Settles O53: fault entry records the cause it found, and no other event touches what that cause reads. -/
theorem stepKeepsLatchInv : Obligations.StepKeepsLatchInv := by
  intro s t hs h
  exact step_keeps (P := LatchInv) (fun _ _ => latchInv_congr rfl rfl rfl rfl rfl rfl) (fun _ _ => latchInv_stepEvent)
    (fun _ => latchInv_congr rfl rfl rfl rfl rfl rfl) (fun _ _ _ => latchInv_congr rfl rfl rfl rfl rfl rfl)
    (fun _ => latchInv_congr rfl rfl rfl rfl rfl rfl) (fun _ _ _ => latchInv_of_fault_eq_none rfl) hs h

/-- Settles O54: reset lists no cell, uses no stack entry and has an empty latch. -/
theorem resetMeetsTheInvariants : Obligations.ResetMeetsTheInvariants :=
  ⟨⟨wf_reset, fun _ _ => rfl⟩, controlInv_reset, latchInv_of_fault_eq_none rfl⟩

end Sys2Proof.Machine
end

section
/-! PROOFS. The step cycle (40_step_cycle.md): fetch, dispatch, the schedule, and the cores that do not move. -/

namespace Sys2Proof.Machine

/-! ### Fetch and dispatch (R91, R93) -/

theorem bytesWord_toNat (hi lo : Byte) : (bytesWord hi lo).toNat = hi.toNat * 256 + lo.toNat := by
  rw [bytesWord, BitVec.toNat_append, ← Nat.shiftLeft_add_eq_or_of_lt lo.isLt, Nat.shiftLeft_eq]

theorem stepEvent_of_fetch {s : State} {w : Word} (hf : Running s) (hw : fetch s = some w) :
    stepEvent s = exec (decode w) s := by
  have hf' : s.fault = none := hf
  simp [stepEvent, hf', hw]

theorem stepEvent_of_fetch_eq_none {s : State} (hf : Running s) (hw : fetch s = none) :
    stepEvent s = .next (raiseFault .fetchRange 0 s.pc.toNat s) := by
  have hf' : s.fault = none := hf
  simp [stepEvent, hf', hw]

theorem stepEvent_of_fault {s : State} (hf : s.fault ≠ none) : stepEvent s = .next s := by
  simp [stepEvent, Option.isSome_iff_ne_none, hf]

/-! ### The schedule (R6, R7) -/

theorem step_of_unscheduled {s : State} (h : s.schedule = []) : step s = perform .step s := by
  rw [step, nextEvent_nil h]

theorem step_of_scheduled {s : State} {e : Event} {rest : List Event} (h : s.schedule = e :: rest) :
    step s = perform e { s with schedule := rest } := by
  rw [step, nextEvent_cons h]

/-! ### The word of a jump to itself (R224) -/

theorem fieldNNN_toNat (w : Word) : (fieldNNN w).toNat = w.toNat % 0x1000 := by
  simp [fieldNNN, BitVec.extractLsb'_toNat]

theorem decode_of_op_one {w : Word} (ho : (fieldOp w).toNat = 1) : decode w = .jp (fieldNNN w) := by
  unfold decode; simp only [ho]

theorem exec_jp_self {s : State} {nnn : Addr} (h : nnn.toNat = s.pc.toNat) : exec (.jp nnn) s = .next s := by
  have hpc : addrOperand nnn = s.pc := BitVec.eq_of_toNat_eq (by rw [addrOperand_toNat, h])
  rw [exec_jp, hpc]
  rfl

theorem stepEvent_of_atRest {s : State} (h : AtRest s) : stepEvent s = .next s := by
  obtain ⟨hf, hpc, hhi, hlo⟩ := h
  have hw := fetch_eq_some (s := s) hpc
  rw [stepEvent_of_fetch hf hw]
  generalize hword : bytesWord (Memory.read s.mem s.pc.toNat) (Memory.read s.mem (s.pc.toNat + 1)) = w
  have hval : w.toNat = 0x1000 + s.pc.toNat := by
    rw [← hword, bytesWord_toNat, hhi, hlo]
    omega
  have hop : (fieldOp w).toNat = 1 := by rw [← div_eq_fieldOp, hval]; omega
  have hnnn : (fieldNNN w).toNat = s.pc.toNat := by rw [fieldNNN_toNat, hval]; omega
  rw [decode_of_op_one hop]
  exact exec_jp_self hnnn

theorem stepEvent_of_waitsForKey {s : State} (h : WaitsForKey s) : stepEvent s = .next s := by
  obtain ⟨hf, ⟨w, x, hw, hdec⟩, hkeys⟩ := h
  rw [stepEvent_of_fetch hf hw, hdec]
  exact (waitForKeyTakesTheLowestKey s x).2 hkeys

/-! ### The obligations -/

/-- Settles O7: the two bytes at `pc` are the fetched word, whichever way the `STEP` comes next. -/
theorem stepRunsTheDecodedInstruction : Obligations.StepRunsTheDecodedInstruction := by
  intro s i hf hpc hdec
  obtain rfl : decode (bytesWord (Memory.read s.mem s.pc.toNat) (Memory.read s.mem (s.pc.toNat + 1))) = i := by
    simpa [decodeBytes] using hdec
  have hw := fetch_eq_some (s := s) hpc
  refine ⟨wf_decode _, fun hs => ?_, fun rest hs => ?_⟩
  · rw [step_of_unscheduled hs]
    exact stepEvent_of_fetch hf hw
  · rw [step_of_scheduled hs]
    exact stepEvent_of_fetch (s := { s with schedule := rest }) hf hw

/-- Settles O8: the fetch refuses exactly the addresses above 0xFFE, and the high byte stands first. -/
theorem fetchIsBigEndianAndChecked : Obligations.FetchIsBigEndianAndChecked := by
  intro s
  refine ⟨fun hpc hf => ?_, fun hpc => ⟨_, fetch_eq_some hpc, bytesWord_toNat _ _⟩⟩
  exact ⟨_, stepEvent_of_fetch_eq_none hf (fetch_eq_none.2 hpc), faultsWith_raiseFault _ _ _ s⟩

/-- Settles O9: `STEP` looks at the latch first, and of the other events `RESET` alone writes it. -/
theorem faultedCoreStaysFaulted : Obligations.FaultedCoreStaysFaulted := by
  intro s t e hf h
  cases e with
  | step =>
    obtain rfl : s = t := Host.Outcome.next.inj ((stepEvent_of_fault hf).symm.trans h)
    exact ⟨fun _ => rfl, fun _ => rfl, nofun, nofun⟩
  | tick =>
    cases h
    exact ⟨nofun, fun _ => rfl, nofun, fun _ => ⟨countDown_toNat s.dt, countDown_toNat s.st⟩⟩
  | keySet k =>
    cases h
    exact ⟨nofun, fun _ => rfl, nofun, nofun⟩
  | keyClear k =>
    cases h
    exact ⟨nofun, fun _ => rfl, nofun, nofun⟩
  | redrawAck =>
    cases h
    exact ⟨nofun, fun _ => rfl, nofun, nofun⟩
  | reset program =>
    obtain ⟨-, rfl⟩ := resetEvent_next h
    exact ⟨nofun, fun hne => absurd rfl (hne program), fun _ _ => rfl, nofun⟩

/-- Settles O10: the head of the schedule comes next, and with none a `STEP`. -/
theorem stepsFollowTheSchedule : Obligations.StepsFollowTheSchedule := by
  intro s
  exact ⟨step_of_unscheduled, fun _ _ => step_of_scheduled⟩

/-- Settles O40: with no key pressed, the instruction at `pc` takes its own advance back. -/
theorem waitingCoreStays : Obligations.WaitingCoreStays := by
  intro s hwait hs
  rw [step_of_unscheduled hs]
  exact stepEvent_of_waitsForKey hwait

/-- Settles O44: a running core's latch is set by the fetch or by the fetched instruction, each time by fault entry. -/
theorem faultsArePrecise : Obligations.FaultsArePrecise := by
  intro s t h
  refine ⟨fun f hrun hf => ?_, fun hfault => ?_⟩
  · obtain ⟨hne, -⟩ | ⟨-, -, hw, rfl⟩ | ⟨w, code, info, -, hw, -, rfl⟩ | ⟨w, -, -, -, -, rfl⟩ := stepEvent_next_cases h
    · exact absurd hrun hne
    · cases hf
      exact ⟨faultsWith_raiseFault _ _ _ s, .inr ⟨hw, rfl, rfl⟩⟩
    · cases hf
      exact ⟨faultsWith_raiseFault _ _ _ s, .inl hw⟩
    · rw [effect_fault, show s.fault = none from hrun] at hf
      cases hf
  · exact (Host.Outcome.next.inj ((stepEvent_of_fault hfault).symm.trans h)).symm

/-- Settles O48: the word at `pc` is a jump whose operand is `pc`. -/
theorem restIsAFixedPoint : Obligations.RestIsAFixedPoint := by
  intro s hrest
  exact ⟨stepEvent_of_atRest hrest, fun hs => (step_of_unscheduled hs).trans (stepEvent_of_atRest hrest)⟩

end Sys2Proof.Machine
end

section
/-! PROOFS. Control flow (41_control_flow.md): return, call, the compare skips, jump-with-offset, and nested calls. -/

namespace Sys2Proof.Machine

/-! ### One return, one call -/

theorem exec_ret_of_pos {s : State} (h : s.sp.val ≠ 0) : exec .ret s = .next (popped (advance s)) :=
  exec_of_not_raises (if_neg h)

theorem exec_call_of_lt {s : State} (h : s.sp.val < 16) (nnn : Addr) :
    exec (.call nnn) s = .next (jumpTo (addrOperand nnn) (pushed (advance s))) :=
  exec_of_not_raises (i := .call nnn) (if_neg (Nat.ne_of_lt h))

theorem exec_call_of_full {s : State} (h : s.sp.val = 16) (nnn : Addr) :
    exec (.call nnn) s = .next (raiseFault .stackOverflow (0x2#4 ++ nnn) 16 s) :=
  exec_of_raises (i := .call nnn) (if_pos h)

theorem popped_pc {s : State} {j : Fin 16} (h : s.sp.val = j.val + 1) : (popped s).pc = s.stack[j] := by
  simp only [popped, h, Nat.add_sub_cancel, Fin.getElem_fin]

theorem popped_sp {s : State} {j : Nat} (h : s.sp.val = j + 1) : (popped s).sp.val = j := by
  simp only [popped, h, Nat.add_sub_cancel]

theorem pushed_sp {s : State} (h : s.sp.val < 16) : (pushed s).sp.val = s.sp.val + 1 :=
  Nat.min_eq_left h

/-- What a push leaves in every stack entry (R102). -/
theorem getElem_pushed_stack (s : State) (k : Fin 16) :
    (pushed s).stack[k] = if s.sp.val = k.val then s.pc else s.stack[k] := by
  simp only [pushed, Fin.getElem_fin, Vector.getElem_setIfInBounds]

/-! ### Skips (R108) -/

/-- The skip convention, its condition entering by what it means. -/
theorem skipIf_advance_spec (s : State) {cond : Bool} {P : Prop} [Decidable P] (h : cond = true ↔ P) :
    (skipIf cond (advance s)).pc = (if P then s.pc + 4 else s.pc + 2) ∧
      s = { skipIf cond (advance s) with pc := s.pc } := by
  refine ⟨?_, by cases cond <;> rfl⟩
  rw [skipIf_pc, advance_pc, if_congr h rfl rfl, BitVec.add_assoc]
  rfl

/-! ### Nested calls (R26, R27) -/

/-- A sequence of calls that fits the stack runs through, keeps the latch and the entries in use, and puts the address after
the first call into the entry that was next. -/
theorem runCalls_spec (targets : List Addr) (s : State) (h : s.sp.val + targets.length ≤ 16) :
    ∃ t, runCalls targets s = some t ∧ t.fault = s.fault ∧ t.sp.val = s.sp.val + targets.length ∧
      (∀ k : Fin 16, k.val < s.sp.val → t.stack[k] = s.stack[k]) ∧
      (targets ≠ [] → ∀ k : Fin 16, k.val = s.sp.val → t.stack[k] = s.pc + 2) := by
  induction targets generalizing s with
  | nil => exact ⟨s, rfl, rfl, rfl, fun _ _ => rfl, fun h => absurd rfl h⟩
  | cons nnn rest ih =>
    rw [List.length_cons] at h
    have hlt : s.sp.val < 16 := by omega
    have hsp : (pushed (advance s)).sp.val = s.sp.val + 1 := pushed_sp (s := advance s) hlt
    obtain ⟨t, hrun, hf, htsp, hkeep, -⟩ := ih (jumpTo (addrOperand nnn) (pushed (advance s))) (by
      rw [jumpTo_sp, hsp]; omega)
    rw [jumpTo_sp, hsp] at htsp hkeep
    have hentry := getElem_pushed_stack (advance s)
    refine ⟨t, ?_, hf, by rw [htsp, List.length_cons]; omega, fun k hk => ?_, fun _ k hk => ?_⟩
    · rw [runCalls, exec_call_of_lt hlt]
      exact hrun
    · rw [hkeep k (by omega), jumpTo_stack, hentry, if_neg (by rw [advance_sp]; omega), advance_stack]
    · rw [hkeep k (by omega), jumpTo_stack, hentry, if_pos (by rw [advance_sp]; omega), advance_pc]

/-- As many returns as there are entries above a depth come back to it, at the address the lowest of them holds. -/
theorem runReturns_spec (n : Nat) (s : State) (j : Fin 16) (h : s.sp.val = j.val + n + 1) :
    ∃ u, runReturns (n + 1) s = some u ∧ u.fault = s.fault ∧ u.sp.val = j.val ∧ u.pc = s.stack[j] := by
  induction n generalizing s with
  | zero =>
    refine ⟨popped (advance s), ?_, rfl, popped_sp (s := advance s) h, popped_pc (s := advance s) h⟩
    rw [runReturns, exec_ret_of_pos (by omega)]
    rfl
  | succ n ih =>
    obtain ⟨u, hrun, hf, hsp, hpc⟩ := ih (popped (advance s)) (popped_sp (s := advance s) h)
    refine ⟨u, ?_, hf, hsp, hpc⟩
    rw [runReturns, exec_ret_of_pos (by omega)]
    exact hrun

/-! ### The obligations -/

/-- Settles O11: above depth 0 the pop answers the entry below the depth; at depth 0 the table of causes names the fault. -/
theorem returnPopsTheCallStack : Obligations.ReturnPopsTheCallStack := by
  intro s
  refine ⟨fun j hj => ?_, fun h0 => ?_⟩
  · exact ⟨_, exec_ret_of_pos (by omega), popped_sp (s := advance s) hj, popped_pc (s := advance s) hj, rfl⟩
  · exact ⟨_, exec_of_raises (i := .ret) (if_pos h0), faultsWith_raiseFault _ _ _ s⟩

/-- Settles O13: below depth 16 the push fills the entry at the depth; at depth 16 the table of causes names the fault. -/
theorem callPushesTheNextAddress : Obligations.CallPushesTheNextAddress := by
  intro s nnn
  refine ⟨fun j hj => ?_, fun hfull => ?_⟩
  · have hlt : s.sp.val < 16 := by omega
    have hentry := getElem_pushed_stack (advance s)
    refine ⟨_, exec_call_of_lt hlt nnn, ?_, ?_, fun k hk => ?_, addrOperand_toNat nnn, rfl⟩
    · rw [jumpTo_sp, pushed_sp (s := advance s) hlt, advance_sp, hj]
    · rw [jumpTo_stack, hentry, advance_sp, if_pos hj, advance_pc]
    · have hne : s.sp.val ≠ k.val := fun h => hk (Fin.ext (h.symm.trans hj))
      rw [jumpTo_stack, hentry, advance_sp, if_neg hne, advance_stack]
  · exact ⟨_, exec_call_of_full hfull nnn, faultsWith_raiseFault _ _ _ s⟩

/-- Settles O14: the four conditions are equalities and their negations. -/
theorem skipsPassOverOneInstruction : Obligations.SkipsPassOverOneInstruction := by
  intro s x y kk
  exact ⟨⟨_, exec_of_not_raises rfl, skipIf_advance_spec s beq_iff_eq⟩,
    ⟨_, exec_of_not_raises rfl, skipIf_advance_spec s bne_iff_ne⟩,
    ⟨_, exec_of_not_raises rfl, skipIf_advance_spec s beq_iff_eq⟩,
    ⟨_, exec_of_not_raises rfl, skipIf_advance_spec s bne_iff_ne⟩⟩

/-- Settles O15: the sum of a 12-bit and an 8-bit value fits `pc`. -/
theorem jumpWithOffsetAddsVZero : Obligations.JumpWithOffsetAddsVZero := by
  intro s nnn
  exact ⟨_, exec_of_not_raises rfl, addrOperand_add_wideV_toNat nnn s 0, rfl⟩

/-- Settles O16: the call fills the entry at its depth, and the return reads the entry just below its own. -/
theorem returnMatchesItsCall : Obligations.ReturnMatchesItsCall := by
  intro s u nnn hlt
  refine ⟨_, exec_call_of_lt hlt nnn, fun hstack hsp => ?_⟩
  have hu : u.sp.val = s.sp.val + 1 := by rw [hsp]; exact pushed_sp (s := advance s) hlt
  have hpc : (popped (advance u)).pc = u.stack[(⟨s.sp.val, hlt⟩ : Fin 16)] := 
    popped_pc (s := advance u) (j := ⟨s.sp.val, hlt⟩) hu
  refine ⟨_, exec_ret_of_pos (by omega), ?_, Fin.ext (popped_sp (s := advance u) hu)⟩
  rw [hpc, hstack, jumpTo_stack, getElem_pushed_stack, advance_sp, if_pos rfl, advance_pc]

/-- Settles O17: the calls stack their return addresses upwards from the caller's depth, and the returns take them off. -/
theorem nestedCallsUnwind : Obligations.NestedCallsUnwind := by
  intro s targets last hne hfit
  obtain ⟨n, hn⟩ := Nat.exists_eq_succ_of_ne_zero (mt List.eq_nil_of_length_eq_zero hne)
  obtain ⟨t, hrun, hf, hsp, -, hfirst⟩ := runCalls_spec targets s hfit
  have hlt : s.sp.val < 16 := by omega
  obtain ⟨u, hret, huf, husp, hupc⟩ := runReturns_spec n t ⟨s.sp.val, hlt⟩ (by rw [hsp, hn]; rfl)
  refine ⟨t, hrun, hf, hsp, ⟨u, hn ▸ hret, huf.trans hf, Fin.ext husp, ?_⟩, fun hfull => ?_⟩
  · rw [hupc, hfirst hne ⟨s.sp.val, hlt⟩ rfl]
  · exact ⟨_, exec_call_of_full (hsp.trans hfull) last, faultsWith_raiseFault _ _ _ t⟩

end Sys2Proof.Machine
end

section
/-! PROOFS. Registers (42_register_arithmetic.md) and memory (43_memory_index.md): the shifts, random-and, and the stores and
loads of blocks. -/

namespace Sys2Proof.Machine

/-! ### Shifts and random-and (R128 to R131) -/

theorem shiftOperand_eq {s : State} {x y : Nibble} {src : Byte} (hx : s.params.shiftSrc = .x → src = getV s x)
    (hy : s.params.shiftSrc = .y → src = getV s y) : shiftOperand s x y = src := by
  unfold shiftOperand
  split
  · next h => exact (hx h).symm
  · next h => exact (hy h).symm

theorem ofNat_div_two_eq_shiftRight (w : Byte) : BitVec.ofNat 8 (w.toNat / 2) = w >>> 1 := by
  have := w.isLt
  apply BitVec.eq_of_toNat_eq
  rw [BitVec.toNat_ofNat, BitVec.toNat_ushiftRight, Nat.shiftRight_eq_div_pow]
  omega

theorem ofNat_mul_two_mod_eq_shiftLeft (w : Byte) : BitVec.ofNat 8 (w.toNat * 2 % 256) = w <<< 1 := by
  apply BitVec.eq_of_toNat_eq
  rw [BitVec.toNat_ofNat, BitVec.toNat_shiftLeft, Nat.shiftLeft_eq, Nat.mod_mod]

/-! ### Digits (R143) -/

theorem bcdDigits_getD_toNat (w d : Byte) :
    ((bcdDigits w).getD 0 d).toNat = w.toNat / 100 ∧ ((bcdDigits w).getD 1 d).toNat = w.toNat / 10 % 10 ∧
      ((bcdDigits w).getD 2 d).toNat = w.toNat % 10 := by
  simp [bcdDigits]

/-! ### The advance of `I` (R144, R145) -/

theorem add_succ_nibble_toNat {w : Word} {x : Nibble} (h : w.toNat + x.toNat ≤ 0xFFF) :
    (w + x.setWidth 16 + 1).toNat = w.toNat + x.toNat + 1 := by
  have hx : (x.setWidth 16).toNat = x.toNat := by
    rw [BitVec.toNat_setWidth]
    omega
  have h1 : (1 : Word).toNat = 1 := rfl
  rw [BitVec.toNat_add, BitVec.toNat_add, hx, h1]
  omega

theorem advanceIndex_i_spec {s t : State} {x : Nibble} (hi : t.i = s.i) (hp : t.params = s.params)
    (h : indexBase s + x.toNat ≤ 0xFFF) :
    (s.params.indexIncrement = true → (advanceIndex t x).i.toNat = s.i.toNat + x.toNat + 1) ∧
      (s.params.indexIncrement = false → (advanceIndex t x).i = s.i) := by
  rw [advanceIndex_i, hi, hp]
  refine ⟨fun hinc => ?_, fun hinc => ?_⟩
  · rw [if_pos hinc]
    exact add_succ_nibble_toNat h
  · rw [if_neg (by simp [hinc])]

theorem effect_stRegs_i {s : State} {x : Nibble} (h : indexBase s + x.toNat ≤ 0xFFF) :
    (s.params.indexIncrement = true → (effect (.stRegs x) s).i.toNat = s.i.toNat + x.toNat + 1) ∧
      (s.params.indexIncrement = false → (effect (.stRegs x) s).i = s.i) :=
  advanceIndex_i_spec (setMem_i _ _) (setMem_params _ _) h

theorem effect_ldRegs_i {s : State} {x : Nibble} (h : indexBase s + x.toNat ≤ 0xFFF) :
    (s.params.indexIncrement = true → (effect (.ldRegs x) s).i.toNat = s.i.toNat + x.toNat + 1) ∧
      (s.params.indexIncrement = false → (effect (.ldRegs x) s).i = s.i) :=
  advanceIndex_i_spec (loadRegisters_i _ _ _) (loadRegisters_params _ _ _) h

/-! ### Blocks in memory -/

theorem read_effect_ldB {s : State} {x : Nibble} (hm : Memory.wf s.mem = true) (h : indexBase s + 2 ≤ 0xFFF) (a : Nat) :
    Memory.read (effect (.ldB x) s).mem a =
      if indexBase s ≤ a then (bcdDigits (getV s x)).getD (a - indexBase s) (Memory.read s.mem a)
      else Memory.read s.mem a := by
  rw [effect_ldB_mem, Memory.read_writeBlock hm (bcdDigits_fit h _)]

/-- What store-registers leaves at the address of each register it stores (R144). -/
theorem read_effect_stRegs {s : State} {x r : Nibble} (hm : Memory.wf s.mem = true)
    (h : indexBase s + x.toNat ≤ 0xFFF) (hr : r.toNat ≤ x.toNat) :
    Memory.read (effect (.stRegs x) s).mem (indexBase s + r.toNat) = getV s r := by
  rw [effect_stRegs_mem, Memory.read_writeBlock hm (registerBlock_fits h), if_pos (Nat.le_add_right _ _),
    Nat.add_sub_cancel_left, registerBlock_getD s x r hr]

theorem effect_stRegs_frame (x : Nibble) (s : State) :
    { effect (.stRegs x) s with mem := s.mem, i := s.i, pc := s.pc } = s := by
  simp [effect]

theorem effect_ldRegs_frame (x : Nibble) (s : State) :
    { effect (.ldRegs x) s with v := s.v, i := s.i, pc := s.pc } = s := by
  simp [effect]

theorem raises_ldRegs_eq_none {x : Nibble} {s : State} :
    (Instr.ldRegs x).raises s = none ↔ indexBase s + x.toNat ≤ 0xFFF := by
  simp only [Instr.raises, indexBase]
  split <;> simp <;> omega

/-- What load-registers leaves in every register (R145). -/
theorem getV_effect_ldRegs (x r : Nibble) (s : State) :
    getV (effect (.ldRegs x) s) r =
      if r.toNat ≤ x.toNat then Memory.read s.mem (indexBase s + r.toNat) else getV s r := by
  rw [effect, getV_advanceIndex, getV_loadRegisters, advance_mem, getV_advance]

/-! ### The obligations -/

/-- Settles O21: the flag is the bit lost, and moving by one place is a division or a product by 2. -/
theorem shiftsCaptureTheLostBit : Obligations.ShiftsCaptureTheLostBit := by
  intro s x y src hx hy
  obtain rfl := shiftOperand_eq hx hy
  rw [ofNat_div_two_eq_shiftRight, ofNat_mul_two_mod_eq_shiftLeft]
  exact ⟨⟨_, exec_of_not_raises rfl, writesFlagAndRegister_writeFlagThen_advance s rightLostBit_eq_true x _⟩,
    ⟨_, exec_of_not_raises rfl, writesFlagAndRegister_writeFlagThen_advance s leftLostBit_eq_true x _⟩⟩

/-- Settles O22: a conjunction with the immediate has no bit outside it, whatever the random byte is. -/
theorem randomAndKeepsToItsMask : Obligations.RandomAndKeepsToItsMask := by
  intro s x kk
  have hdest : getV (effect (.rnd x kk) s) x = Config.rnd s.draws &&& kk := by
    rw [effect, getV_countDraw, getV_setV_self]
  refine ⟨_, exec_of_not_raises rfl, hdest, fun k hk => ?_, fun r hr => ?_, rfl, rfl, rfl⟩
  · rw [hdest, BitVec.getLsbD_and, hk, Bool.and_false]
  · rw [effect, getV_countDraw, getV_setV_of_ne _ _ hr, getV_advance]

/-- Settles O25: the table of causes splits the addresses, and in range the block write holds the three digits. -/
theorem storeBcdStoresThreeDigits : Obligations.StoreBcdStoresThreeDigits := by
  intro s x
  refine ⟨fun hg => ?_, fun hr => ?_, fun hm hlo hhi => ?_⟩
  · exact ⟨_, exec_of_raises (i := .ldB x) (if_pos hg), faultsWith_raiseFault _ _ _ s⟩
  · exact ⟨_, exec_of_raises (i := .ldB x) ((if_neg (by unfold indexBase at hr; omega)).trans (if_pos hr)),
      faultsWith_raiseFault _ _ _ s⟩
  · have hread := read_effect_ldB (x := x) hm hhi
    refine ⟨_, exec_of_not_raises (raises_ldB_eq_none.2 ⟨hlo, hhi⟩), ?_, ?_, ?_, fun a ha => ?_, rfl, rfl⟩
    · rw [hread, if_pos (Nat.le_refl _), Nat.sub_self]
      exact (bcdDigits_getD_toNat _ _).1
    · rw [hread, if_pos (Nat.le_add_right _ _), Nat.add_sub_cancel_left]
      exact (bcdDigits_getD_toNat _ _).2.1
    · rw [hread, if_pos (Nat.le_add_right _ _), Nat.add_sub_cancel_left]
      exact (bcdDigits_getD_toNat _ _).2.2
    · exact read_effect_of_outside hm (raises_ldB_eq_none.2 ⟨hlo, hhi⟩) (fun _ _ => ha) nofun

/-- Settles O26: the table of causes splits the addresses, and in range the block write holds the registers. -/
theorem storeRegistersStoresTheBlock : Obligations.StoreRegistersStoresTheBlock := by
  intro s x
  refine ⟨fun hg => ?_, fun hr => ?_, fun hm hlo hhi => ?_⟩
  · exact ⟨_, exec_of_raises (i := .stRegs x) (if_pos hg), faultsWith_raiseFault _ _ _ s⟩
  · have := x.isLt
    unfold indexBase at hr
    exact ⟨_, exec_of_raises (i := .stRegs x) ((if_neg (by omega)).trans (if_pos hr)), faultsWith_raiseFault _ _ _ s⟩
  · have hr := raises_stRegs_eq_none.2 ⟨hlo, hhi⟩
    obtain ⟨hinc, hkeep⟩ := effect_stRegs_i hhi
    refine ⟨_, exec_of_not_raises hr, fun r hrx => read_effect_stRegs hm hhi hrx, fun a ha => ?_, hinc, hkeep, ?_, ?_⟩
    · refine read_effect_of_outside hm hr nofun fun x' h => ?_
      cases h
      exact ha
    · rw [effect, advanceIndex_pc, setMem_pc, advance_pc]
    · exact (effect_stRegs_frame x s).symm

/-- Settles O27: the table of causes splits the addresses, and in range each register up to `x` takes its byte. -/
theorem loadRegistersLoadsTheBlock : Obligations.LoadRegistersLoadsTheBlock := by
  intro s x
  refine ⟨fun hr => ?_, fun hhi => ?_⟩
  · exact ⟨_, exec_of_raises (i := .ldRegs x) (if_pos hr), faultsWith_raiseFault _ _ _ s⟩
  · obtain ⟨hinc, hkeep⟩ := effect_ldRegs_i hhi
    refine ⟨_, exec_of_not_raises (raises_ldRegs_eq_none.2 hhi), fun r hr => ?_, fun r hr => ?_, hinc, hkeep, ?_,
      (effect_ldRegs_frame x s).symm⟩
    · rw [getV_effect_ldRegs, if_pos hr]
    · rw [getV_effect_ldRegs, if_neg (Nat.not_le_of_lt hr)]
    · rw [effect, advanceIndex_pc, loadRegisters_pc, advance_pc]

/-- Settles O29: the fetch reads the two addresses that the store wrote from the two registers. -/
theorem storedBytesAreFetched : Obligations.StoredBytesAreFetched := by
  intro s u x j k hm hlo hhi hjk hkx hpc
  refine ⟨_, exec_of_not_raises (raises_stRegs_eq_none.2 ⟨hlo, hhi⟩), fun hmem => ?_⟩
  have hfetch : u.pc.toNat ≤ lastFetch := by unfold lastFetch; omega
  have hj := read_effect_stRegs hm hhi (r := j) (by omega)
  have hk := read_effect_stRegs hm hhi (r := k) hkx
  rw [fetch_eq_some hfetch, hmem, hpc, hj, Nat.add_assoc, hjk, hk]

end Sys2Proof.Machine
end

section
/-! PROOFS. Display (44_display.md, 60_exceptions.md): draw-sprite, drawing twice, the empty sprite, and the snapshot. -/

namespace Sys2Proof.Machine

/-! ### The cells under a sprite (R151 to R153) -/

/-- A place lies under a set bit of the sprite that a draw would draw. -/
def UnderSprite (s : State) (x y n : Nibble) (p : Fin 64 × Fin 32) : Prop :=
  ∃ r c, r < n.toNat ∧ c < 8 ∧ spriteBit s r c = true ∧ p = spriteCell s x y r c

theorem getElem?_readBlock_eq_some {m : Memory} {a n r : Nat} {w : Byte} :
    (Memory.readBlock m a n)[r]? = some w ↔ r < n ∧ Memory.read m (a + r) = w := by
  have hlen := Memory.length_readBlock m a n
  rw [List.getElem?_eq_some_iff]
  constructor
  · rintro ⟨hr, hw⟩
    exact ⟨hlen ▸ hr, by rw [← hw, Memory.getElem_readBlock]⟩
  · rintro ⟨hr, hw⟩
    exact ⟨hlen.symm ▸ hr, by rw [Memory.getElem_readBlock, hw]⟩

theorem spriteCovers_iff_underSprite (s : State) (x y n : Nibble) (p : Fin 64 × Fin 32) :
    spriteCovers (Memory.readBlock s.mem (indexBase s) n.toNat) (getV s x).toNat (getV s y).toNat p.1 p.2 ↔
      UnderSprite s x y n p := by
  constructor
  · rintro ⟨r, byte, hbyte, ⟨c, hc, hbit, hx⟩, hy⟩
    obtain ⟨hr, rfl⟩ := getElem?_readBlock_eq_some.1 hbyte
    exact ⟨r, c, hr, hc, hbit, Prod.ext hx hy⟩
  · rintro ⟨r, c, hr, hc, hbit, rfl⟩
    exact ⟨r, _, getElem?_readBlock_eq_some.2 ⟨hr, rfl⟩, ⟨c, hc, hbit, rfl⟩, rfl⟩

/-- A sprite has at most 15 rows of 8 columns, so no two of its bits fall on one cell. -/
theorem underSprite_spriteCell {s : State} {x y n : Nibble} {r c : Nat} (hr : r < n.toNat) (hc : c < 8) :
    UnderSprite s x y n (spriteCell s x y r c) ↔ spriteBit s r c = true := by
  have := n.isLt
  constructor
  · rintro ⟨r', c', hr', hc', hbit, hcell⟩
    obtain ⟨hx, hy⟩ := Prod.mk.inj hcell
    obtain rfl := wrapX_inj hc hc' hx
    obtain rfl := wrapY_inj (by omega) (by omega) hy
    exact hbit
  · exact fun hbit => ⟨r, c, hr, hc, hbit, rfl⟩

theorem exists_underSprite {s : State} {x y n : Nibble} {Q : Fin 64 × Fin 32 → Prop} :
    (∃ p, UnderSprite s x y n p ∧ Q p) ↔
      ∃ r c, r < n.toNat ∧ c < 8 ∧ spriteBit s r c = true ∧ Q (spriteCell s x y r c) := by
  constructor
  · rintro ⟨p, ⟨r, c, hr, hc, hbit, rfl⟩, hq⟩
    exact ⟨r, c, hr, hc, hbit, hq⟩
  · rintro ⟨r, c, hr, hc, hbit, hq⟩
    exact ⟨_, ⟨r, c, hr, hc, hbit, rfl⟩, hq⟩

/-! ### The effect of a draw -/

section Draw
variable (x y n : Nibble) (s : State)

theorem readBlock_length_le : (Memory.readBlock s.mem (indexBase s) n.toNat).length ≤ 32 := by
  have := n.isLt
  rw [Memory.length_readBlock]
  omega

/-- A draw flips exactly the cells under the sprite. -/
theorem cellAt_effect_drw (p : Fin 64 × Fin 32) :
    cellAt (effect (.drw x y n) s).fb p = true ↔ (cellAt s.fb p = true ↔ ¬ UnderSprite s x y n p) := by
  rw [← spriteCovers_iff_underSprite]
  exact (drawRows_spec _ _ _ (s.fb, false) (readBlock_length_le n s)).1 p.1 p.2

theorem getV_effect_drw_flag :
    getV (effect (.drw x y n) s) flagReg = flagByte (spriteDrawing x y n s).2 := by
  rw [effect, getV_setFramebuffer, getV_setV_self]

/-- The flag of a draw is 1 exactly when some set bit falls on a cell that is 1. -/
theorem getV_effect_drw_flag_eq_one :
    getV (effect (.drw x y n) s) flagReg = 1 ↔
      ∃ r c, r < n.toNat ∧ c < 8 ∧ spriteBit s r c = true ∧ cellAt s.fb (spriteCell s x y r c) = true := by
  rw [getV_effect_drw_flag, flagByte_eq_one, ← exists_underSprite (Q := fun p => cellAt s.fb p = true)]
  refine (drawRows_spec _ _ _ (s.fb, false) (readBlock_length_le n s)).2.trans ?_
  constructor
  · rintro (h | ⟨cx, cy, hcov, hcell⟩)
    · cases h
    · exact ⟨(cx, cy), (spriteCovers_iff_underSprite s x y n (cx, cy)).1 hcov, hcell⟩
  · rintro ⟨p, hp, hcell⟩
    exact .inr ⟨p.1, p.2, (spriteCovers_iff_underSprite s x y n p).2 hp, hcell⟩

theorem getV_effect_drw_flag_cases :
    getV (effect (.drw x y n) s) flagReg = 0 ∨ getV (effect (.drw x y n) s) flagReg = 1 := by
  rw [getV_effect_drw_flag]
  cases (spriteDrawing x y n s).2
  · exact .inl rfl
  · exact .inr rfl

theorem getV_effect_drw_of_ne {q : Nibble} (h : q ≠ flagReg) : getV (effect (.drw x y n) s) q = getV s q := by
  rw [effect, getV_setFramebuffer, getV_setV_of_ne _ _ h, getV_advance]

theorem effect_drw_frame :
    { effect (.drw x y n) s with v := s.v, fb := s.fb, redraw := s.redraw, pc := s.pc } = s := by
  simp [effect]

variable {x y n s}

theorem cellAt_effect_drw_spriteCell {r c : Nat} (hr : r < n.toNat) (hc : c < 8) :
    cellAt (effect (.drw x y n) s).fb (spriteCell s x y r c) =
      (cellAt s.fb (spriteCell s x y r c) ^^ spriteBit s r c) := by
  rw [Bool.eq_iff_iff, xor_eq_true_iff, cellAt_effect_drw, underSprite_spriteCell hr hc]

theorem cellAt_effect_drw_of_not_under {p : Fin 64 × Fin 32} (h : ¬ UnderSprite s x y n p) :
    cellAt (effect (.drw x y n) s).fb p = cellAt s.fb p := by
  rw [Bool.eq_iff_iff, cellAt_effect_drw]
  simp only [h, not_false_eq_true, iff_true]

theorem raises_drw_of_in_range (h : n = 0 ∨ indexBase s + n.toNat ≤ 0x1000) : (Instr.drw x y n).raises s = none := by
  refine if_neg fun hpast => ?_
  obtain ⟨hn, hpast⟩ := hpast
  rcases h with rfl | h
  · exact hn rfl
  · unfold indexBase at h
    omega

theorem raises_drw_of_past (hn : n ≠ 0) (h : 0x1000 < indexBase s + n.toNat) :
    (Instr.drw x y n).raises s = some (.readRange, max (indexBase s) 0x1000) := by
  refine if_pos ⟨fun h0 => hn (BitVec.eq_of_toNat_eq h0), ?_⟩
  unfold indexBase at h
  omega

end Draw

/-! ### Drawing the same sprite again (R156) -/

theorem framebuffer_ext {fb fb' : Framebuffer} (h : ∀ p, cellAt fb p = cellAt fb' p) : fb = fb' := by
  ext y hy x hx
  exact h (⟨x, hx⟩, ⟨y, hy⟩)

/-- A draw in `u` would draw the sprite of a draw in `s`: the same `I`, origin and sprite bytes. -/
def SameSprite (s u : State) (x y n : Nibble) : Prop :=
  u.i = s.i ∧ getV u x = getV s x ∧ getV u y = getV s y ∧
    ∀ r, r < n.toNat → Memory.read u.mem (indexBase s + r) = Memory.read s.mem (indexBase s + r)

section Twice
variable {s u : State} {x y n : Nibble} (h : SameSprite s u x y n)
include h

theorem spriteCell_of_sameSprite (r c : Nat) : spriteCell u x y r c = spriteCell s x y r c := by
  obtain ⟨-, hx, hy, -⟩ := h
  rw [spriteCell, hx, hy, spriteCell]

theorem spriteBit_of_sameSprite {r : Nat} (hr : r < n.toNat) (c : Nat) : spriteBit u r c = spriteBit s r c := by
  obtain ⟨hi, -, -, hmem⟩ := h
  have hbase : indexBase u = indexBase s := congrArg BitVec.toNat hi
  rw [spriteBit, hbase, hmem r hr, spriteBit]

theorem exists_bit_of_sameSprite (Q : Fin 64 × Fin 32 → Prop) :
    (∃ r c, r < n.toNat ∧ c < 8 ∧ spriteBit u r c = true ∧ Q (spriteCell u x y r c)) ↔
      ∃ r c, r < n.toNat ∧ c < 8 ∧ spriteBit s r c = true ∧ Q (spriteCell s x y r c) := by
  refine exists_congr fun r => exists_congr fun c => and_congr_right fun hr => and_congr_right fun _ => ?_
  rw [spriteBit_of_sameSprite h hr, spriteCell_of_sameSprite h]

theorem underSprite_of_sameSprite (p : Fin 64 × Fin 32) : UnderSprite u x y n p ↔ UnderSprite s x y n p :=
  exists_bit_of_sameSprite h (p = ·)

/-- The second draw flips the cells back. -/
theorem effect_drw_twice_fb (hfb : u.fb = (effect (.drw x y n) s).fb) : (effect (.drw x y n) u).fb = s.fb := by
  refine framebuffer_ext fun p => ?_
  rw [Bool.eq_iff_iff, cellAt_effect_drw, hfb, cellAt_effect_drw, underSprite_of_sameSprite h]
  by_cases hp : UnderSprite s x y n p
  · simp only [hp, not_true_eq_false, iff_false, not_not]
  · simp only [hp, not_false_eq_true, iff_true]

end Twice

/-! ### The snapshot (R30, R192) -/

theorem snapshot_eq_flatten (s : State) : snapshot s = s.fb.flatten.toList := by
  change _ = (s.fb.toArray.map Vector.toArray).flatten.toList
  rw [Array.toList_flatten, Array.toList_map, List.map_map]
  rfl

/-! ### The obligations -/

/-- Settles O31: the draw flips the cells under the sprite, and each cell lies under at most one sprite bit. -/
theorem drawSpriteTogglesItsCells : Obligations.DrawSpriteTogglesItsCells := by
  intro s x y n
  refine ⟨fun hn hpast => ?_, fun hin => ?_⟩
  · exact ⟨_, exec_of_raises (raises_drw_of_past hn hpast), faultsWith_raiseFault _ _ _ s⟩
  · refine ⟨_, exec_of_not_raises (raises_drw_of_in_range hin), fun r c => cellAt_effect_drw_spriteCell, fun p hp => ?_,
      getV_effect_drw_flag_eq_one x y n s, getV_effect_drw_flag_cases x y n s,
      fun q => getV_effect_drw_of_ne x y n s, rfl, rfl, (effect_drw_frame x y n s).symm⟩
    refine cellAt_effect_drw_of_not_under ?_
    rintro ⟨r, c, hr, hc, -, hcell⟩
    exact hp r c hr hc hcell

/-- Settles O32: with no row there is nothing to read, to check or to toggle. -/
theorem emptySpriteDrawsNothing : Obligations.EmptySpriteDrawsNothing := by
  intro s x y
  have hdrawing : spriteDrawing x y 0 s = (s.fb, false) := rfl
  have hflag : getV (effect (.drw x y 0) s) flagReg = 0 := by
    rw [getV_effect_drw_flag, hdrawing]
    rfl
  exact ⟨_, exec_of_not_raises (raises_drw_of_in_range (.inl rfl)), rfl, rfl, rfl, hflag,
    fun r => getV_effect_drw_of_ne x y 0 s, rfl⟩

/-- Settles O33: the second draw flips the same cells, so a bit collides exactly where the first draw set the cell. -/
theorem drawingTwiceRestores : Obligations.DrawingTwiceRestores := by
  intro s u x y n hin
  refine ⟨_, exec_of_not_raises (raises_drw_of_in_range hin), fun hu => ?_⟩
  obtain ⟨hfb, hsame⟩ : u.fb = (effect (.drw x y n) s).fb ∧ SameSprite s u x y n := by
    rcases hu with ⟨rfl, hx, hy⟩ | ⟨hfb, hi, hx, hy, hmem⟩
    · exact ⟨rfl, rfl, getV_effect_drw_of_ne x y n s hx, getV_effect_drw_of_ne x y n s hy, fun _ _ => rfl⟩
    · exact ⟨hfb, hi, hx, hy, hmem⟩
  have hin' : n = 0 ∨ indexBase u + n.toNat ≤ 0x1000 := by
    rwa [show indexBase u = indexBase s from congrArg BitVec.toNat hsame.1]
  have hflag : getV (effect (.drw x y n) u) flagReg = 1 ↔ ∃ k c, k < n.toNat ∧ c < 8 ∧ spriteBit s k c = true ∧
      cellAt (effect (.drw x y n) s).fb (spriteCell s x y k c) = true := by
    rw [getV_effect_drw_flag_eq_one, hfb]
    exact exists_bit_of_sameSprite hsame (cellAt (effect (.drw x y n) s).fb · = true)
  refine ⟨_, exec_of_not_raises (raises_drw_of_in_range hin'), effect_drw_twice_fb hsame hfb,
    (getV_effect_drw_flag_cases x y n u).symm, hflag, hflag.trans ?_⟩
  refine exists_congr fun k => exists_congr fun c => and_congr_right fun hk => and_congr_right fun hc =>
    and_congr_right fun hbit => ?_
  rw [cellAt_effect_drw_spriteCell hk hc, hbit, Bool.xor_true, Bool.not_eq_true']

/-- Settles O34: the snapshot is the rows one after another, and each row has 64 cells. -/
theorem snapshotIsRowMajor : Obligations.SnapshotIsRowMajor := by
  intro s x y
  have hlt : y.val * 64 + x.val < 32 * 64 := by omega
  have hrow : (y.val * 64 + x.val) / 64 = y.val := by omega
  have hcol : (y.val * 64 + x.val) % 64 = x.val := by omega
  rw [snapshot_eq_flatten]
  refine ⟨Vector.length_toList, ?_⟩
  rw [Vector.getElem?_toList, Vector.getElem?_eq_getElem hlt, Vector.getElem_flatten hlt]
  simp only [hrow, hcol]
  rfl

end Sys2Proof.Machine
end

section
/-! PROOFS. Outputs, keypad and reset (45_timers_io.md, 46_keypad.md, 70_reset_and_hazards.md): the sound output, the keypad
skips, and the loader. -/

namespace Sys2Proof.Machine

/-! ### Keypad skips (R170, R171) -/

theorem effect_skp_of_key {s : State} {x : Nibble} {k : Fin 16} (h : (getV s x).toNat = k.val) :
    effect (.skp x) s = skipIf s.keypad[k] (advance s) := by
  rw [effect, keyOperand_eq_some k h, Option.getD_some]

theorem effect_sknp_of_key {s : State} {x : Nibble} {k : Fin 16} (h : (getV s x).toNat = k.val) :
    effect (.sknp x) s = skipIf (!s.keypad[k]) (advance s) := by
  rw [effect, keyOperand_eq_some k h, Option.getD_some]

/-! ### The loader (R60, R211) -/

theorem loadProgram_fits {program : List Byte} (h : program.length ≤ programMax) :
    programBase + program.length ≤ memSize := by
  unfold programMax at h
  unfold programBase memSize
  omega

theorem initialByte_of_ge {a : Nat} (h : 0x50 ≤ a) : initialByte a = 0 :=
  List.getD_eq_default glyphs 0 h

theorem read_loadProgram_image {program : List Byte} (h : program.length ≤ programMax) {k : Nat} {w : Byte}
    (hk : program[k]? = some w) : Memory.read (loadProgram program) (programBase + k) = w := by
  rw [loadProgram, Memory.read_writeBlock rfl (loadProgram_fits h), if_pos (Nat.le_add_right _ _),
    Nat.add_sub_cancel_left, List.getD_eq_getElem?_getD, hk, Option.getD_some]

theorem read_loadProgram_of_past {program : List Byte} (h : program.length ≤ programMax) {a : Nat}
    (ha : programBase + program.length ≤ a) : Memory.read (loadProgram program) a = 0 := by
  rw [loadProgram, Memory.read_writeBlock_of_outside rfl (loadProgram_fits h) (.inr ha)]
  refine initialByte_of_ge ?_
  unfold programBase at ha
  omega

theorem resetEvent_of_fits {program : List Byte} (h : program.length ≤ programMax) (s : State) :
    resetEvent program s = .next (resetWith program s) := if_pos h

theorem resetEvent_eq_refused_iff {program : List Byte} {s : State} :
    resetEvent program s = .refused .imageTooLong ↔ programMax < program.length := by
  unfold resetEvent
  split
  · next h => exact iff_of_false nofun (Nat.not_lt_of_le h)
  · next h => exact iff_of_true rfl (Nat.lt_of_not_le h)

/-! ### The obligations -/

/-- Settles O36: the output reads the timer that the instruction wrote. -/
theorem soundOutputFollowsTheTimer : Obligations.SoundOutputFollowsTheTimer := by
  intro s x
  exact ⟨_, exec_ldST x s, setST_st _ _, bne_iff_ne⟩

/-- Settles O38: a value that names a key makes the skips compare skips on that key; above 15 the table names the fault. -/
theorem keypadSkipsTestTheNamedKey : Obligations.KeypadSkipsTestTheNamedKey := by
  intro s x
  refine ⟨fun k hk => ?_, fun hpast => ?_⟩
  · have hle : ¬ 15 < (getV s x).toNat := by omega
    refine ⟨⟨_, exec_of_not_raises (i := .skp x) (if_neg hle), ?_⟩,
      ⟨_, exec_of_not_raises (i := .sknp x) (if_neg hle), ?_⟩⟩
    · rw [effect_skp_of_key hk]
      exact skipIf_advance_spec s Iff.rfl
    · rw [effect_sknp_of_key hk]
      exact skipIf_advance_spec s (Iff.of_eq (Bool.not_eq_true' _))
  · exact ⟨⟨_, exec_of_raises (i := .skp x) (if_pos hpast), faultsWith_raiseFault _ _ _ s⟩,
      ⟨_, exec_of_raises (i := .sknp x) (if_pos hpast), faultsWith_raiseFault _ _ _ s⟩⟩

/-- Settles O49: memory is the initial contents with the program written over it, and every other row is a constant. -/
theorem resetSetsEveryElement : Obligations.ResetSetsEveryElement := by
  intro s program h
  have hglyphs : ∀ a, a < 0x50 → Memory.read (loadProgram program) a = glyphs.getD a 0 := fun a ha =>
    read_loadProgram_of_lt h (Nat.lt_trans ha (by decide))
  have hgap : ∀ a, 0x50 ≤ a → a < 0x200 → Memory.read (loadProgram program) a = 0 := fun a hlo hhi =>
    (read_loadProgram_of_lt h hhi).trans (initialByte_of_ge hlo)
  refine ⟨_, resetEvent_of_fits h s, hglyphs, hgap, fun k w => read_loadProgram_image h,
    fun a => read_loadProgram_of_past h, rfl, rfl, fun j => Vector.getElem_replicate j.isLt,
    fun r => Vector.getElem_replicate r.isLt, rfl, rfl, rfl, Framebuffer.cell_blank, rfl,
    fun k => Vector.getElem_replicate k.isLt, rfl⟩

/-- Settles O50: the event looks at the length alone. -/
theorem oversizedImageIsRefused : Obligations.OversizedImageIsRefused := by
  intro s program
  exact resetEvent_eq_refused_iff

end Sys2Proof.Machine
end
